-- ==== Sys2Proof/Word.lean ====
section
/-! DEFINITION. The word types of the block, one register (a value and its `written` mark), and the
real values a float register can hold. Nothing here computes: the bit-field and arithmetic helpers
are in Machine/Ops.lean. -/

namespace Sys2Proof

/-- A 32-bit register word (R5 `REG_W`), also the width of a binary32 pattern (R66). -/
abbrev Word := BitVec 32

/-- A `code12` (R53). -/
abbrev Code12 := BitVec 12

/-- A `code13` (R55). -/
abbrev Code13 := BitVec 13

/-- A `code16` (R54), also the width of `CODE_IN[i]` (R21). -/
abbrev Code16 := BitVec 16

/-- A 5-bit command word (R50). -/
abbrev CommandWord := BitVec 5

/-- One register of width `w`. `written` is the spec's own state of a register (R33, R34): false from
reset until the host (an input register) or an operation (an output register) writes it. The value of
an unwritten register is never read by an operation nor shown to the host (log 1). -/
structure Reg (w : Nat) where
  value : BitVec w
  written : Bool
  deriving DecidableEq, Repr

/-- The register in the state reset leaves it in (R33); the value 0 is a DESIGN CHOICE (log 1). -/
def Reg.unwritten (w : Nat) : Reg w := { value := 0, written := false }

/-- The register right after `v` was written to it, the whole register being replaced (R8). -/
def Reg.ofWrite {w : Nat} (v : BitVec w) : Reg w := { value := v, written := true }

/-- The value of a float register that is no NaN (R31, R66): an exact rational (R7) or an infinity.
-/
inductive FloatVal where
  | finite (x : ℚ)
  | infinite (neg : Bool)
  deriving DecidableEq, Repr

end Sys2Proof
end

