-- ==== Sys2Proof/Config.lean ====
section
/-! DEFINITION. What the spec leaves open for the whole life of the machine: the device
classification (R67, D16) and the values host reads of unwritten registers return (U5). Both are
constants without a body, so no proof can know a value of theirs. The constant parameters of R5 are in
Machine/Params.lean. -/

namespace Sys2Proof

/-- The enumeration `Variant` of R10. `CLASSIFY`'s extra value `None` is `Option.none`. -/
inductive Variant where
  | legacyFamily
  | modernFamilyA
  | modernFamilyB
  deriving DecidableEq, Repr

/-- The classification rule `CLASSIFY` (R67, U10) the machine has after reset, as a finite list of
identifiers; an identifier that is not listed is `None`. Every total function on 32-bit identifiers is
such a list. OPEN in the spec (D16), so it has no body (log 2). -/
opaque Config.classTable : List (Word × Variant)

/-- The free values (U5): what the `k`-th host read of an unwritten register returns, before it is cut
to the register's width (log 3). -/
opaque Config.freeRead : Nat → Word

end Sys2Proof
end

