-- ==== Sys2Proof/Syntax.lean ====
section
/-! DEFINITION. The whole syntax: the commands (one constructor per row of spec/opcode_table.json), the
names of the registers (R21, R22, R24), and the accesses a host makes (R68). -/

namespace Sys2Proof

/-- Which modern variant code a word of `ENCC.M` or `PACK.M` carries: `var` 10 or 11 (R52). Both select
the same operation. -/
inductive ModernFamily where
  | a
  | b
  deriving DecidableEq, Repr

/-- The commands, one constructor per row of the opcode table (R51, R62). A field `var` holds don't-care
bits of the word: kept so that `CMD` reads back the word written (R24), never looked at (R52). -/
inductive Instr where
  /-- `BITREV`, words `000 xx` (R70). -/
  | bitrev (var : BitVec 2)
  /-- `ENCC.L`, word `001 01` (R77). -/
  | enccL
  /-- `ENCC.M`, words `001 1x` (R80). -/
  | enccM (fam : ModernFamily)
  /-- `ENCO`, words `010 xx` (R90). -/
  | enco (var : BitVec 2)
  /-- `PACK.L`, word `011 01` (R100). -/
  | packL
  /-- `PACK.M`, words `011 1x` (R103). -/
  | packM (fam : ModernFamily)
  /-- `BUILD`, words `100 xx` (R110). -/
  | build (var : BitVec 2)
  /-- `RESERVED.ENCC0`, word `001 00` (R62). -/
  | reservedEncc0
  /-- `RESERVED.PACK0`, word `011 00` (R62). -/
  | reservedPack0
  /-- `RESERVED.OP5`, words `101 xx` (R62). -/
  | reservedOp5 (var : BitVec 2)
  /-- `RESERVED.OP6_7`, words `11o xx` (R62). -/
  | reservedOp67 (o : BitVec 1) (var : BitVec 2)
  deriving DecidableEq, Repr

/-- The input registers (R21). -/
inductive InReg where
  | coef (i : Fin 9)
  | preoffIn (j : Fin 3)
  | postoffIn (j : Fin 3)
  | validIn
  | modeIn
  | devid
  | opf
  | opv
  | opn
  | codeIn (i : Fin 9)
  deriving DecidableEq, Repr

/-- The output registers (R22). -/
inductive OutReg where
  | res
  | cscCoeff (i : Fin 6)
  | cscPreoff (j : Fin 3)
  | cscPostoff (j : Fin 3)
  | cscMode
  | validOut
  deriving DecidableEq, Repr

/-- Every register of the block: R21, R22 and `CMD` (R24). There is no other (R30). -/
inductive RegName where
  | inp (r : InReg)
  | cmd
  | out (r : OutReg)
  deriving DecidableEq, Repr

/-- What the outside world does to the block: the host's `WR` (of an input register or of `CMD`) and `RD`
(R68), each naming a register by its number (R44), and reset (R150). A write carries the value the host
presents, an unsigned integer (R42). -/
inductive HostEvent where
  | write (number : Nat) (value : Nat)
  | read (number : Nat)
  | reset
  deriving DecidableEq, Repr

end Sys2Proof
end

