-- ==== Sys2Proof/Decode.lean ====
section
/-! DEFINITION. The command word decoder and, after it, the encoder, both from R50 to R52; the register
numbers of R44; register widths (R21, R22, R24). -/

namespace Sys2Proof

/-! ## The command word -/

/-- Field `op`, bits 4:2 (R50). -/
def opField (w : CommandWord) : BitVec 3 := w.extractLsb' 2 3

/-- Field `var`, bits 1:0 (R50). -/
def varField (w : CommandWord) : BitVec 2 := w.extractLsb' 0 2

/-- The modern variant codes: 10 is A, 11 is B (R52). -/
def modernOfVar (v : BitVec 2) : ModernFamily := if v.getLsbD 0 then .b else .a

/-- Decoding of a command word (R51): `op` first, then `var` for `op` 1 and 3. Total: the table's rows
take all 32 words, the reserved ones (R62) too. -/
def decode (w : CommandWord) : Instr :=
  let v := varField w
  match (opField w).toNat with
  | 0 => .bitrev v
  | 1 => if v = 0 then .reservedEncc0 else if v = 1 then .enccL else .enccM (modernOfVar v)
  | 2 => .enco v
  | 3 => if v = 0 then .reservedPack0 else if v = 1 then .packL else .packM (modernOfVar v)
  | 4 => .build v
  | 5 => .reservedOp5 v
  | 6 => .reservedOp67 0 v
  | _ => .reservedOp67 1 v

/-- Why a value presented at `CMD` is no command word. -/
inductive DecodeError where
  /-- The value does not fit the 5 bits of `CMD` (R42, R50). -/
  | widerThanCommandWord
  deriving DecidableEq, Repr

/-- Decoding of any value presented at `CMD`: a command, or a rejection by name. -/
def decodeValue (v : Nat) : Except DecodeError Instr :=
  if v < 2 ^ 5 then .ok (decode (BitVec.ofNat 5 v)) else .error .widerThanCommandWord

/-- The host's entry to the decoder: the word whose bits are `w`, numbered as the opcode table numbers
them. The block has no byte order (R41): a command word is presented whole, so nothing is laid out in
bytes (log 7). -/
def decodeTableWord (nbits w : Nat) : Option Instr :=
  match decodeValue (w % 2 ^ nbits) with
  | .ok i => some i
  | .error _ => none

/-- A command word put together from its two fields (R50). -/
def commandWord (op : BitVec 3) (var : BitVec 2) : CommandWord := op ++ var

/-- The variant code of a modern family (R52). -/
def varOfModern : ModernFamily → BitVec 2
  | .a => 0b10#2
  | .b => 0b11#2

/-- The word of a command (R51). -/
def encode : Instr → CommandWord
  | .bitrev v => commandWord 0 v
  | .reservedEncc0 => commandWord 1 0b00#2
  | .enccL => commandWord 1 0b01#2
  | .enccM fam => commandWord 1 (varOfModern fam)
  | .enco v => commandWord 2 v
  | .reservedPack0 => commandWord 3 0b00#2
  | .packL => commandWord 3 0b01#2
  | .packM fam => commandWord 3 (varOfModern fam)
  | .build v => commandWord 4 v
  | .reservedOp5 v => commandWord 5 v
  | .reservedOp67 o v => commandWord (0b11#2 ++ o) v

/-! ## Register numbers and widths -/

/-- The number of a register (R44). -/
def RegName.number : RegName → Nat
  | .inp (.coef i) => i.val
  | .inp (.preoffIn j) => 0x09 + j.val
  | .inp (.postoffIn j) => 0x0C + j.val
  | .inp .validIn => 0x0F
  | .inp .modeIn => 0x10
  | .inp .devid => 0x11
  | .inp .opf => 0x12
  | .inp .opv => 0x13
  | .inp .opn => 0x14
  | .inp (.codeIn i) => 0x15 + i.val
  | .cmd => 0x1E
  | .out .res => 0x20
  | .out (.cscCoeff i) => 0x21 + i.val
  | .out (.cscPreoff j) => 0x27 + j.val
  | .out (.cscPostoff j) => 0x2A + j.val
  | .out .cscMode => 0x2D
  | .out .validOut => 0x2E

/-- The register with a number (R44); none for the unused numbers 0x1F and 0x2F upwards (U7). -/
def RegName.ofNumber (n : Nat) : Option RegName :=
  if h : n < 9 then some (.inp (.coef ⟨n, h⟩))
  else if h : n - 0x09 < 3 then some (.inp (.preoffIn ⟨n - 0x09, h⟩))
  else if h : n - 0x0C < 3 then some (.inp (.postoffIn ⟨n - 0x0C, h⟩))
  else if n = 0x0F then some (.inp .validIn)
  else if n = 0x10 then some (.inp .modeIn)
  else if n = 0x11 then some (.inp .devid)
  else if n = 0x12 then some (.inp .opf)
  else if n = 0x13 then some (.inp .opv)
  else if n = 0x14 then some (.inp .opn)
  else if h : n - 0x15 < 9 then some (.inp (.codeIn ⟨n - 0x15, h⟩))
  else if n = 0x1E then some .cmd
  else if n = 0x1F then none
  else if n = 0x20 then some (.out .res)
  else if h : n - 0x21 < 6 then some (.out (.cscCoeff ⟨n - 0x21, h⟩))
  else if h : n - 0x27 < 3 then some (.out (.cscPreoff ⟨n - 0x27, h⟩))
  else if h : n - 0x2A < 3 then some (.out (.cscPostoff ⟨n - 0x2A, h⟩))
  else if n = 0x2D then some (.out .cscMode)
  else if n = 0x2E then some (.out .validOut)
  else none

/-- The width of an input register (R21). -/
def InReg.width : InReg → Nat
  | .opn => 5
  | .codeIn _ => 16
  | .coef _ | .preoffIn _ | .postoffIn _ | .validIn | .modeIn | .devid | .opf | .opv => 32

/-- The width of a register (R21, R22, R24). -/
def RegName.width : RegName → Nat
  | .inp r => r.width
  | .cmd => 5
  | .out _ => 32

end Sys2Proof
end

