-- ==== Sys2Proof/Machine/Params.lean ====
section
/-! DEFINITION. The constant parameters of R5, under the spec's names where the rules use them. -/

namespace Sys2Proof.Machine.Params

/-- `BR_MAX_N`. -/
abbrev brMaxN : Nat := 16

/-- `L_MANT`. -/
abbrev lMant : Nat := 10

/-- `L_CLIP`, the exact rational 1999/1000 (D6). -/
abbrev lClip : ℚ := 1999 / 1000

/-- `M_MANT`. -/
abbrev mMant : Nat := 9

/-- `M_EXP_CAP`. -/
abbrev mExpCap : Nat := 3

/-- `M_EXP_BIAS`. -/
abbrev mExpBias : Nat := 8

/-- The bit offset of the exponent field, under `M_EXP_BITS`. -/
abbrev mExpOffset : Nat := 12

/-- `M_SIGN_BIT`. -/
abbrev mSignBit : Nat := 15

/-- `M_MANT_SHIFT`. -/
abbrev mMantShift : Nat := 3

/-- `M_CLIP`, the exact rational 2999/1000 (D6). -/
abbrev mClip : ℚ := 2999 / 1000

/-- `M_WIN_LT1` (D7). -/
abbrev mWinLt1 : Nat := 9

/-- `M_WIN_GE1` (D7, D8). -/
abbrev mWinGe1 : Nat := 8

/-- `O_BITS`. -/
abbrev oBits : Nat := 13

/-- `O_CLIP`, the exact rational 999/1000 (D6). -/
abbrev oClip : ℚ := 999 / 1000

/-- `MODE_BEFORE_GAMMA_IN`. -/
abbrev modeBeforeGammaIn : Word := 1

/-- `MODE_BEFORE_GAMMA_CODE`. -/
abbrev modeBeforeGammaCode : Word := 2

/-- `VALID_COEF_BIT` (D12). No rule reads the bit (R60). -/
abbrev validCoefBit : Nat := 0

/-- `VALID_OFFS_BIT` (D12). -/
abbrev validOffsBit : Nat := 1

/-- `VALID_MODE_BIT` (D12). -/
abbrev validModeBit : Nat := 2

end Sys2Proof.Machine.Params
end

