-- ==== Sys2Proof/Machine/State.lean ====
section
/-! DEFINITION. The state of the block as plain data: every register of R21, R22 and R24, the open
classification (R67), and the model's own fields for the host at its port. The reasons a step can stop,
and the state after reset (R33, R150). -/

namespace Sys2Proof.Machine

/-- One value a host read (`RD`, R68) returned, zero-extended to 32 bits. -/
structure ReadBack where
  reg : RegName
  value : Word
  deriving DecidableEq, Repr

/-- The state. The transient locals of an operation (R27) are no part of it. -/
structure State where
  /-- `COEF[0..8]` (R21). -/
  coef : Vector (Reg 32) 9
  /-- `PREOFF_IN[0..2]` (R21). -/
  preoffIn : Vector (Reg 32) 3
  /-- `POSTOFF_IN[0..2]` (R21). -/
  postoffIn : Vector (Reg 32) 3
  /-- `VALID_IN` (R21, R60). -/
  validIn : Reg 32
  /-- `MODE_IN` (R21). -/
  modeIn : Reg 32
  /-- `DEVID` (R21, R67). -/
  devid : Reg 32
  /-- `OPF` (R21). -/
  opf : Reg 32
  /-- `OPV` (R21). -/
  opv : Reg 32
  /-- `OPN` (R21). -/
  opn : Reg 5
  /-- `CODE_IN[0..8]` (R21). -/
  codeIn : Vector (Reg 16) 9
  /-- `CMD`, the last word written to it (R24). -/
  cmd : Reg 5
  /-- `RES` (R22). -/
  res : Reg 32
  /-- `CSC_COEFF[0..5]` (R22). -/
  cscCoeff : Vector (Reg 32) 6
  /-- `CSC_PREOFF[0..2]` (R22). -/
  cscPreoff : Vector (Reg 32) 3
  /-- `CSC_POSTOFF[0..2]` (R22). -/
  cscPostoff : Vector (Reg 32) 3
  /-- `CSC_MODE` (R22). -/
  cscMode : Reg 32
  /-- `VALID_OUT` (R22). -/
  validOut : Reg 32
  /-- `CLASSIFY` (R67), a parameter that no step changes (log 2). -/
  classTable : List (Word × Variant)
  /-- The model's own: the accesses the host issues next, first one first (R45, log 4). -/
  pending : List HostEvent
  /-- The model's own: what the host's reads returned, newest first (log 4). -/
  answers : List ReadBack
  /-- The model's own: how many free values were drawn (U5, log 3). -/
  freeCount : Nat
  deriving DecidableEq, Repr

/-- The faults: none. 'The block raises no synchronous exception' (R130). -/
inductive Fault : Type
  deriving DecidableEq, Repr

/-- Where the spec gives a step no meaning (R132). All are safe: the model stops where nothing is known of
the hardware. -/
inductive Refusal where
  /-- Raised by an arm of `exec` whose command has no meaning yet; no arm does. Safe. -/
  | notModelled (mnemonic : String)
  /-- `reserved_command`: raised by the four reserved rows (R62, U1). Safe. -/
  | reservedCommand
  /-- `bitrev_count_out_of_contract`: raised by `BITREV` with `OPN` in 17 to 31 (R70, U2). Safe. -/
  | bitrevCountOutOfContract
  /-- `nan_operand`: raised by `ENCC.L`, `ENCC.M`, `ENCO` and `BUILD` when a float register they read
  holds a NaN pattern (R31, U3). Safe. -/
  | nanOperand
  /-- `unwritten_input`: raised by every operation that reads an input register not written since reset. The
  spec's own stop: 'An operation whose rule reads an unwritten input register is refused:
  refuse(unwritten_input)' (R34, and U5, D17, R132, R135, R151). Safe. -/
  | unwrittenInput
  /-- A host write to an output register (R32, U6). Safe. -/
  | hostWriteToOutput
  /-- A host access to register number 0x1F or above 0x2E (R44, U7). Safe. -/
  | unusedRegister
  /-- A host write of a value wider than the register (R42, log 6). Safe. -/
  | writeWiderThanRegister
  deriving DecidableEq, Repr

/-- The state right after reset of a block whose classification is `table`: every register unwritten,
the block idle, nothing pending (R33, R150). The count of free values starts at 0 in every instance and in
every run, a DESIGN CHOICE (log 3). -/
def State.resetWith (table : List (Word × Variant)) : State where
  coef := Vector.replicate 9 (Reg.unwritten 32)
  preoffIn := Vector.replicate 3 (Reg.unwritten 32)
  postoffIn := Vector.replicate 3 (Reg.unwritten 32)
  validIn := Reg.unwritten 32
  modeIn := Reg.unwritten 32
  devid := Reg.unwritten 32
  opf := Reg.unwritten 32
  opv := Reg.unwritten 32
  opn := Reg.unwritten 5
  codeIn := Vector.replicate 9 (Reg.unwritten 16)
  cmd := Reg.unwritten 5
  res := Reg.unwritten 32
  cscCoeff := Vector.replicate 6 (Reg.unwritten 32)
  cscPreoff := Vector.replicate 3 (Reg.unwritten 32)
  cscPostoff := Vector.replicate 3 (Reg.unwritten 32)
  cscMode := Reg.unwritten 32
  validOut := Reg.unwritten 32
  classTable := table
  pending := []
  answers := []
  freeCount := 0

/-- The state right after reset (R33, R150), the classification being the open one (R67). -/
def State.reset : State := State.resetWith Config.classTable

end Sys2Proof.Machine
end

