-- ==== Sys2Proof/Machine/Ops.lean ====
section
/-! DEFINITION. The shared operations: negation of a word (R6), bit reversal (R71), one doubling of a
mantissa loop (R76, R91), the view of any register, and the writes of registers. The block takes no
exception (R130, R136), so there is no exception entry and no return from one. -/

namespace Sys2Proof.Machine

/-! ## Words -/

/-- `neg_N` (R6): invert the bits and add one. -/
def negWord {n : Nat} (v : BitVec n) : BitVec n := ~~~v + 1

/-- `bitrev(v, n)` (R71): bit `i` of the result is bit `n-1-i` of `v`, for `i < n`. Counting one bit more
moves the bits already reversed up by one and puts the new bit of `v` at the bottom. -/
def bitrev (v : Nat) : Nat → Nat
  | 0 => 0
  | n + 1 => 2 * bitrev v n + (v.testBit n).toNat

/-! ## The mantissa loop -/

/-- One doubling of a magnitude below 1: the bit it emits and the remainder (R76 lines 8 and 9, R79 lines
13 and 14, R91 lines 6 and 7). -/
def emitBit (a : ℚ) : Bool × ℚ := if 1 ≤ 2 * a then (true, 2 * a - 1) else (false, 2 * a)

/-- `n` doublings from loop index `i`: the remainder, and the emitted bits ORed into `m`, the first at
bit `i` (R76 lines 7 to 10, R91 lines 5 to 8). -/
def emitBits : (n i : Nat) → ℚ → Nat → ℚ × Nat
  | 0, _, a, m => (a, m)
  | n + 1, i, a, m => emitBits n (i + 1) (emitBit a).2 (m ||| ((emitBit a).1.toNat <<< i))

/-! ## Registers -/

/-- A register seen at the width of the port, zero-extended (R42). -/
def widen {w : Nat} (r : Reg w) : Reg 32 := { value := r.value.setWidth 32, written := r.written }

/-- The register under an input register's name (R21). -/
def State.input (s : State) : InReg → Reg 32
  | .coef i => s.coef[i]
  | .preoffIn j => s.preoffIn[j]
  | .postoffIn j => s.postoffIn[j]
  | .validIn => s.validIn
  | .modeIn => s.modeIn
  | .devid => s.devid
  | .opf => s.opf
  | .opv => s.opv
  | .opn => widen s.opn
  | .codeIn i => widen s.codeIn[i]

/-- The register under an output register's name (R22). -/
def State.output (s : State) : OutReg → Reg 32
  | .res => s.res
  | .cscCoeff i => s.cscCoeff[i]
  | .cscPreoff j => s.cscPreoff[j]
  | .cscPostoff j => s.cscPostoff[j]
  | .cscMode => s.cscMode
  | .validOut => s.validOut

/-- The register under any name (R21, R22, R24). -/
def State.reg (s : State) : RegName → Reg 32
  | .inp r => s.input r
  | .cmd => widen s.cmd
  | .out r => s.output r

/-- The host stores a value, of the register's width, in an input register (R43). -/
def State.writeInput (s : State) (r : InReg) (v : Nat) : State :=
  match r with
  | .coef i => { s with coef := s.coef.set i (Reg.ofWrite (BitVec.ofNat 32 v)) }
  | .preoffIn j => { s with preoffIn := s.preoffIn.set j (Reg.ofWrite (BitVec.ofNat 32 v)) }
  | .postoffIn j => { s with postoffIn := s.postoffIn.set j (Reg.ofWrite (BitVec.ofNat 32 v)) }
  | .validIn => { s with validIn := Reg.ofWrite (BitVec.ofNat 32 v) }
  | .modeIn => { s with modeIn := Reg.ofWrite (BitVec.ofNat 32 v) }
  | .devid => { s with devid := Reg.ofWrite (BitVec.ofNat 32 v) }
  | .opf => { s with opf := Reg.ofWrite (BitVec.ofNat 32 v) }
  | .opv => { s with opv := Reg.ofWrite (BitVec.ofNat 32 v) }
  | .opn => { s with opn := Reg.ofWrite (BitVec.ofNat 5 v) }
  | .codeIn i => { s with codeIn := s.codeIn.set i (Reg.ofWrite (BitVec.ofNat 16 v)) }

/-- `CMD` takes the word written to it, so that a host read of it returns that word (R24). -/
def State.latchCommand (s : State) (w : CommandWord) : State := { s with cmd := Reg.ofWrite w }

/-- `RES <- v`. -/
def State.setRes (s : State) (v : Word) : State := { s with res := Reg.ofWrite v }

/-- `CSC_COEFF[j] <- r[j]` for every `j`, whole words (R105). -/
def State.setCoeffWords (s : State) (r : Vector Word 6) : State :=
  { s with cscCoeff := Vector.ofFn fun j => Reg.ofWrite r[j] }

/-- `CSC_PREOFF[j]` and `CSC_POSTOFF[j]` for every `j`, whole words (R113). -/
def State.setOffsetWords (s : State) (pre post : Vector Word 3) : State :=
  { s with
    cscPreoff := Vector.ofFn fun j => Reg.ofWrite pre[j]
    cscPostoff := Vector.ofFn fun j => Reg.ofWrite post[j] }

/-- `CSC_MODE <- v`. -/
def State.setModeWord (s : State) (v : Word) : State := { s with cscMode := Reg.ofWrite v }

/-- `VALID_OUT <- v`. -/
def State.setValidOut (s : State) (v : Word) : State := { s with validOut := Reg.ofWrite v }

end Sys2Proof.Machine
end

