-- ==== Sys2Proof/Machine/Operands.lean ====
section
/-! DEFINITION. How an operation reads its operands: the value of a float pattern (R66), the
classification of a device identifier (R67), and reading several float registers at once, with the
refusals for unwritten registers (R34) and NaN patterns (R31). -/

namespace Sys2Proof.Machine

/-- `(-1)^s`. -/
def signFactor (s : Bool) : ℚ := if s then -1 else 1

/-- `val(p)` of a binary32 pattern (R66); none for a NaN pattern, which has no value (R31). -/
def floatVal (p : Word) : Option FloatVal :=
  let s := p.getLsbD 31
  let x := (p.extractLsb' 23 8).toNat
  let f := (p.extractLsb' 0 23).toNat
  if x = 255 then
    if f = 0 then some (.infinite s) else none
  else if x = 0 then
    some (.finite (signFactor s * (2 : ℚ) ^ (-126 : ℤ) * ((f : ℚ) / 2 ^ 23)))
  else
    some (.finite (signFactor s * (2 : ℚ) ^ ((x : ℤ) - 127) * (1 + (f : ℚ) / 2 ^ 23)))

/-- The value of the other sign, `-x` in the properties of R83. -/
def negVal : FloatVal → FloatVal
  | .finite x => .finite (-x)
  | .infinite neg => .infinite (!neg)

/-- `CLASSIFY(id)` (R67): the variant of an identifier; none is `None`. -/
def State.classify (s : State) (id : Word) : Option Variant := s.classTable.lookup id

/-- Whether the variant is one of the two modern ones (R10, R52). -/
def isModern : Variant → Bool
  | .legacyFamily => false
  | .modernFamilyA => true
  | .modernFamilyB => true

/-- Whether every register of a group is written (R34). -/
def allWritten {w n : Nat} (v : Vector (Reg w) n) : Bool := decide (∀ i : Fin n, v[i].written = true)

/-- Applies an encoder to the value of every float register of a group; none when one of them holds a
NaN pattern (R110). -/
def encodeAll {α : Type} {n : Nat} (f : FloatVal → α) (v : Vector (Reg 32) n) :
    Option (Vector α n) :=
  let o := Vector.ofFn fun i : Fin n => (floatVal v[i].value).map f
  if h : ∀ i : Fin n, o[i].isSome then some (Vector.ofFn fun i => o[i].get (h i)) else none

end Sys2Proof.Machine
end

