-- ==== Sys2Proof/Machine/Flags.lean ====
section
/-! DEFINITION. The block has no status flag and no condition code (R26). What is computed here are the
transient flags and tests inside an operation (R27): zero, sign, the clipped magnitude, magnitude at
least 1, the round flag, and the bits of the validity mask (R60). -/

namespace Sys2Proof.Machine

/-- The zero test, on the input before anything else (R75 step 1); both signs of zero have value 0. -/
def isZero : FloatVal → Bool
  | .finite x => x = 0
  | .infinite _ => false

/-- `neg <- (x < 0)` (R75 step 2). -/
def isNegative : FloatVal → Bool
  | .finite x => x < 0
  | .infinite neg => neg

/-- `a <- |x|; if a > CLIP then a <- CLIP` (R75 steps 2 and 3). An infinity is a magnitude above every
clip constant (R66). -/
def clippedMagnitude (clip : ℚ) : FloatVal → ℚ
  | .finite x => if clip < |x| then clip else |x|
  | .infinite _ => clip

/-- `ge1 <- (a >= 1)` (R76 line 4, R79 line 5). -/
def magnitudeGe1 (a : ℚ) : Bool := 1 ≤ a

/-- `rnd <- (a >= 1/2)`, of the remainder after the kept window (R79 line 20, R91 line 9). -/
def roundFlag (a : ℚ) : Bool := 1 / 2 ≤ a

/-- `VALID_IN[VALID_OFFS_BIT] = 1` (R60, R113). -/
def offsetsValid (s : State) : Bool := s.validIn.value.getLsbD Params.validOffsBit

/-- `VALID_IN[VALID_MODE_BIT] = 1` (R60, R114). -/
def modeValid (s : State) : Bool := s.validIn.value.getLsbD Params.validModeBit

end Sys2Proof.Machine
end

