-- ==== Sys2Proof/Machine/BitReversal.lean ====
section
/-! DEFINITION. The bit-reversal unit: `BITREV` (R70). -/

namespace Sys2Proof.Machine

/-- `BITREV` (R70): `RES <- zext_32(bitrev(OPV, OPN))`, refused for `OPN > 16`. The word's `var` is
ignored (R52). -/
def execBitrev (_var : BitVec 2) (s : State) : Host.Outcome State Fault Refusal :=
  if (s.opv.written && s.opn.written) = false then .refused .unwrittenInput
  else if Params.brMaxN < s.opn.value.toNat then .refused .bitrevCountOutOfContract
  else .next (s.setRes (BitVec.ofNat 32 (bitrev s.opv.value.toNat s.opn.value.toNat)))

end Sys2Proof.Machine
end

