-- ==== Sys2Proof/Machine/Coefficient.lean ====
section
/-! DEFINITION. The coefficient encoder: `enc12` (R76), `enc16` (R79), `ENCC.L` (R77) and `ENCC.M`
(R80). -/

namespace Sys2Proof.Machine

/-! ## The 12-bit family -/

/-- Lines 4 to 12 of R76: the magnitude code of a clipped magnitude. -/
def magnitude12 (a : ℚ) : Nat :=
  let ge1 := magnitudeGe1 a
  let m := bitrev (emitBits Params.lMant 0 (if ge1 then a - 1 else a) 0).2 Params.lMant
  if ge1 then m ||| (1 <<< 10) else m

/-- `enc12(x)` (R76). -/
def enc12 (x : FloatVal) : Code12 :=
  if isZero x then 0
  else
    let m := BitVec.ofNat 12 (magnitude12 (clippedMagnitude Params.lClip x))
    if isNegative x then negWord m else m

/-! ## The 16-bit family -/

/-- The locals of the loop of R79. -/
structure Emission where
  a : ℚ
  e : Nat
  seen1 : Bool
  m : Nat
  k : Nat
  deriving DecidableEq, Repr

/-- The body of the loop, lines 13 to 19 of R79: a leading zero below 1 is absorbed into the exponent, at
most three times; any other bit is stored. -/
def emissionBody (ge1 : Bool) (s : Emission) : Emission :=
  let b := (emitBit s.a).1
  let a' := (emitBit s.a).2
  if b = false ∧ ge1 = false ∧ s.seen1 = false ∧ s.e < Params.mExpCap then
    { s with a := a', e := s.e + 1 }
  else
    { s with a := a', seen1 := s.seen1 || b, m := s.m ||| (b.toNat <<< s.k), k := s.k + 1 }

/-- The loop `while k < W` of R79 line 12, with a bound on its turns. -/
def emissionLoop (ge1 : Bool) (window : Nat) : Nat → Emission → Emission
  | 0, s => s
  | fuel + 1, s => if s.k < window then emissionLoop ge1 window fuel (emissionBody ge1 s) else s

/-- The kept window `W` of R79 line 10. -/
def keptWindow (ge1 : Bool) : Nat := if ge1 then Params.mWinGe1 else Params.mWinLt1

/-- The bound on the turns of the loop: 'at most 9 + 3 = 12 times' (R87, log 9). -/
def emissionFuel : Nat := Params.mMant + Params.mExpCap

/-- Lines 4 to 19 of R79: the locals when the window of a clipped magnitude is full. -/
def emission (a : ℚ) : Emission :=
  let ge1 := magnitudeGe1 a
  let ip := ⌊a⌋
  let start : Emission :=
    if ge1 then { a := a - ip, e := Params.mExpBias - ip.toNat, seen1 := false, m := 0, k := 0 }
    else { a := a, e := 0, seen1 := false, m := 0, k := 0 }
  emissionLoop ge1 (keptWindow ge1) emissionFuel start

/-- Lines 20 to 24 of R79: reverse, round, set the leading bit, mask to 9 bits. -/
def mantissa16 (ge1 : Bool) (s : Emission) : Nat :=
  let m := bitrev s.m (keptWindow ge1)
  let m := if roundFlag s.a then m + 1 else m
  let m := if ge1 then m ||| 0x100 else m
  m &&& 0x1FF

/-- Lines 4 to 25 of R79: exponent and mantissa fields of a clipped magnitude. -/
def magnitude16 (a : ℚ) : Nat :=
  let s := emission a
  (s.e <<< Params.mExpOffset) ||| (mantissa16 (magnitudeGe1 a) s <<< Params.mMantShift)

/-- `enc16(x)` (R79). -/
def enc16 (x : FloatVal) : Code16 :=
  if isZero x then 0
  else
    let code := BitVec.ofNat 16 (magnitude16 (clippedMagnitude Params.mClip x))
    if isNegative x then code ||| (1#16 <<< Params.mSignBit) else code

/-! ## The operations -/

/-- An encoder run on `OPF` (R77, R80, R90): refused when `OPF` is unwritten or a NaN pattern, else
`RES` takes the code, zero-extended. -/
def encodeOpf {n : Nat} (enc : FloatVal → BitVec n) (s : State) :
    Host.Outcome State Fault Refusal :=
  if s.opf.written = false then .refused .unwrittenInput
  else
    match floatVal s.opf.value with
    | none => .refused .nanOperand
    | some x => .next (s.setRes ((enc x).setWidth 32))

/-- `ENCC.L` (R77). -/
def execEnccL (s : State) : Host.Outcome State Fault Refusal := encodeOpf enc12 s

/-- `ENCC.M` (R80): both words behave identically. -/
def execEnccM (_fam : ModernFamily) (s : State) : Host.Outcome State Fault Refusal :=
  encodeOpf enc16 s

end Sys2Proof.Machine
end

