-- ==== Sys2Proof/Machine/Offset.lean ====
section
/-! DEFINITION. The offset encoder: `enc13` (R91) and `ENCO` (R90). -/

namespace Sys2Proof.Machine

/-- Lines 4 to 12 of R91: the magnitude code of a clipped magnitude. -/
def magnitude13 (a : ℚ) : Nat :=
  let r := emitBits Params.oBits 0 a 0
  let m := bitrev r.2 Params.oBits
  let m := if roundFlag r.1 then m + 1 else m
  m &&& 0x1FFF

/-- `enc13(x)` (R91). -/
def enc13 (x : FloatVal) : Code13 :=
  if isZero x then 0
  else
    let m := BitVec.ofNat 13 (magnitude13 (clippedMagnitude Params.oClip x))
    if isNegative x then negWord m else m

/-- `ENCO` (R90): the word's `var` is ignored, the unit has one algorithm. -/
def execEnco (_var : BitVec 2) (s : State) : Host.Outcome State Fault Refusal :=
  encodeOpf enc13 s

end Sys2Proof.Machine
end

