-- ==== Sys2Proof/Machine/Packer.lean ====
section
/-! DEFINITION. The register packer: `packL` (R101), `packM` (R102), `PACK.L` (R100) and `PACK.M`
(R103). -/

namespace Sys2Proof.Machine

/-- `(hi << 16) | lo`, computed in 32 bits (R61). -/
def pairWord (hi lo : Code16) : Word := (hi.setWidth 32 <<< 16) ||| lo.setWidth 32

/-- `packL(c)` (R101): in each row the second code is high, and the third has a word of its own,
unshifted. -/
def packL (codes : Vector Code16 9) : Vector Word 6 :=
  #v[pairWord codes[1] codes[0], codes[2].setWidth 32,
     pairWord codes[4] codes[3], codes[5].setWidth 32,
     pairWord codes[7] codes[6], codes[8].setWidth 32]

/-- `packM(c)` (R102): in each row the first code is high, and the third has a word of its own, shifted
up. -/
def packM (codes : Vector Code16 9) : Vector Word 6 :=
  #v[pairWord codes[0] codes[1], codes[2].setWidth 32 <<< 16,
     pairWord codes[3] codes[4], codes[5].setWidth 32 <<< 16,
     pairWord codes[6] codes[7], codes[8].setWidth 32 <<< 16]

/-- A layout run on `CODE_IN[0..8]` (R100, R103). -/
def packCodeIn (layout : Vector Code16 9 → Vector Word 6) (s : State) :
    Host.Outcome State Fault Refusal :=
  if allWritten s.codeIn = false then .refused .unwrittenInput
  else .next (s.setCoeffWords (layout (Vector.ofFn fun i => s.codeIn[i].value)))

/-- `PACK.L` (R100). -/
def execPackL (s : State) : Host.Outcome State Fault Refusal := packCodeIn packL s

/-- `PACK.M` (R103): both words behave identically. -/
def execPackM (_fam : ModernFamily) (s : State) : Host.Outcome State Fault Refusal :=
  packCodeIn packM s

end Sys2Proof.Machine
end

