-- ==== Sys2Proof/Machine/Builder.lean ====
section
/-! DEFINITION. The parameter builder: `BUILD` (R110), one definition per stage (R111 to R115). -/

namespace Sys2Proof.Machine

/-- Whether the offset stage runs (R113). -/
def offsetStageRuns (v : Variant) (s : State) : Bool := isModern v && offsetsValid s

/-- Whether the mode stage runs (R114). -/
def modeStageRuns (v : Variant) (s : State) : Bool := isModern v && modeValid s

/-- Whether the input registers that `BUILD` reads for a recognised variant, beside `DEVID` and
`VALID_IN`, are written (R119, R34). -/
def buildInputsWritten (v : Variant) (s : State) : Bool :=
  allWritten s.coef
    && (!offsetStageRuns v s || (allWritten s.preoffIn && allWritten s.postoffIn))
    && (!modeStageRuns v s || s.modeIn.written)

/-- The words of the coefficient stage (R112; R110 lines 3, 4, 11, 12): encode each coefficient, pack the
nine codes. A `code12` is zero-extended to 16 bits (R61). None when a coefficient is a NaN pattern. -/
def coefficientWords (v : Variant) (s : State) : Option (Vector Word 6) :=
  match v with
  | .legacyFamily => (encodeAll (fun x => (enc12 x).setWidth 16) s.coef).map packL
  | .modernFamilyA => (encodeAll enc16 s.coef).map packM
  | .modernFamilyB => (encodeAll enc16 s.coef).map packM

/-- The words of three offsets (R113, R58). None when an offset is a NaN pattern. -/
def offsetWords (regs : Vector (Reg 32) 3) : Option (Vector Word 3) :=
  encodeAll (fun x => (enc13 x).setWidth 32) regs

/-- The coefficient stage (R112). -/
def coefficientStage (v : Variant) (s : State) : Option State :=
  (coefficientWords v s).map s.setCoeffWords

/-- The offset stage (R113): all six offsets or none. -/
def offsetStage (v : Variant) (s : State) : Option State :=
  if offsetStageRuns v s then
    match offsetWords s.preoffIn, offsetWords s.postoffIn with
    | some pre, some post => some (s.setOffsetWords pre post)
    | _, _ => none
  else some s

/-- The mode code of `MODE_IN` (R59, R114), compared over all 32 bits (D11). -/
def modeCode (m : Word) : Word :=
  if m = Params.modeBeforeGammaIn then Params.modeBeforeGammaCode else 0

/-- The mode stage (R114). -/
def modeStage (v : Variant) (s : State) : State :=
  if modeStageRuns v s then s.setModeWord (modeCode s.modeIn.value) else s

/-- The validity echo (R115). -/
def echoStage (s : State) : State := s.setValidOut s.validIn.value

/-- `BUILD` for a recognised variant: every stage, or a refusal of the whole operation (R118, R135). -/
def buildRecognised (v : Variant) (s : State) : Host.Outcome State Fault Refusal :=
  if buildInputsWritten v s = false then .refused .unwrittenInput
  else
    match (coefficientStage v s).bind (offsetStage v) with
    | none => .refused .nanOperand
    | some t => .next (echoStage (modeStage v t))

/-- `BUILD` (R110): the variant comes from `CLASSIFY(DEVID)`, computed once (R111), never from the word's
`var`. An unrecognised device writes the echo alone (R116). -/
def execBuild (_var : BitVec 2) (s : State) : Host.Outcome State Fault Refusal :=
  if (s.devid.written && s.validIn.written) = false then .refused .unwrittenInput
  else
    match s.classify s.devid.value with
    | none => .next (echoStage s)
    | some v => buildRecognised v s

end Sys2Proof.Machine
end

