-- ==== Sys2Proof/Machine/Reserved.lean ====
section
/-! DEFINITION. The reserved rows of the opcode table: 'The spec gives a reserved word no meaning:
refuse(reserved_command)' (R62, U1). -/

namespace Sys2Proof.Machine

/-- `RESERVED.ENCC0`, word 0x04 (R62). -/
def execReservedEncc0 (_s : State) : Host.Outcome State Fault Refusal := .refused .reservedCommand

/-- `RESERVED.PACK0`, word 0x0C (R62). -/
def execReservedPack0 (_s : State) : Host.Outcome State Fault Refusal := .refused .reservedCommand

/-- `RESERVED.OP5`, words 0x14 to 0x17 (R62). -/
def execReservedOp5 (_var : BitVec 2) (_s : State) : Host.Outcome State Fault Refusal :=
  .refused .reservedCommand

/-- `RESERVED.OP6_7`, words 0x18 to 0x1F (R62). -/
def execReservedOp67 (_o : BitVec 1) (_var : BitVec 2) (_s : State) :
    Host.Outcome State Fault Refusal :=
  .refused .reservedCommand

end Sys2Proof.Machine
end

