-- ==== Sys2Proof/Machine/Dispatch.lean ====
section
/-! DEFINITION. The one match from a command to its meaning. -/

namespace Sys2Proof.Machine

def exec (i : Instr) (s : State) : Host.Outcome State Fault Refusal :=
  match i with
  | .bitrev var => Sys2Proof.Machine.execBitrev var s
  | .enccL => Sys2Proof.Machine.execEnccL s
  | .enccM fam => Sys2Proof.Machine.execEnccM fam s
  | .enco var => Sys2Proof.Machine.execEnco var s
  | .packL => Sys2Proof.Machine.execPackL s
  | .packM fam => Sys2Proof.Machine.execPackM fam s
  | .build var => Sys2Proof.Machine.execBuild var s
  | .reservedEncc0 => Sys2Proof.Machine.execReservedEncc0 s
  | .reservedPack0 => Sys2Proof.Machine.execReservedPack0 s
  | .reservedOp5 var => Sys2Proof.Machine.execReservedOp5 var s
  | .reservedOp67 o var => Sys2Proof.Machine.execReservedOp67 o var s

end Sys2Proof.Machine
end

