-- ==== Sys2Proof/Machine/Port.lean ====
section
/-! DEFINITION. The register port: what one host access asks of the block (R24, R32, R42, R44), how a
read is answered (R43, U5), and what reset does (R150). -/

namespace Sys2Proof.Machine

/-- What an access asks for, once its register number, value and command word are looked at. -/
inductive Request where
  /-- `WR` of an input register. -/
  | store (r : InReg) (v : Nat)
  /-- `WR` of `CMD`: run the command `i` whose word is `w`. -/
  | command (w : CommandWord) (i : Instr)
  /-- `RD`. -/
  | load (r : RegName)
  /-- Reset. -/
  | reset
  /-- The spec gives the access no meaning. -/
  | refuse (why : Refusal)
  deriving DecidableEq, Repr

/-- A write of `CMD` (R24): the value decodes to a command or does not fit the register. -/
def commandRequest (v : Nat) : Request :=
  match decodeValue v with
  | .ok i => .command (BitVec.ofNat 5 v) i
  | .error .widerThanCommandWord => .refuse .writeWiderThanRegister

/-- A host write (R32, R42, U6, U7). -/
def writeRequest (n v : Nat) : Request :=
  match RegName.ofNumber n with
  | none => .refuse .unusedRegister
  | some (.out _) => .refuse .hostWriteToOutput
  | some .cmd => commandRequest v
  | some (.inp r) => if v < 2 ^ r.width then .store r v else .refuse .writeWiderThanRegister

/-- A host read (R32, U7): every register may be read. -/
def readRequest (n : Nat) : Request :=
  match RegName.ofNumber n with
  | none => .refuse .unusedRegister
  | some r => .load r

/-- The request an access makes. -/
def request : HostEvent → Request
  | .write n v => writeRequest n v
  | .read n => readRequest n
  | .reset => .reset

/-- A value cut to the width of a register, zero-extended to the port. -/
def cutTo (r : RegName) (v : Word) : Word := BitVec.ofNat 32 (v.toNat % 2 ^ r.width)

/-- `RD r` (R43, R68): a written register gives its value; an unwritten one any value of its width, a
free value drawn afresh at each read (U5, log 3). No register changes.

DESIGN CHOICE (log 3): the free values of every instance and of every run come from one sequence, by the
state's own count, so two states with the same count draw the same value. U5 lets nobody assume two reads
equal, and no statement compares the reads of two instances or of two runs. -/
def State.answerRead (s : State) (r : RegName) : State :=
  if (s.reg r).written then
    { s with answers := { reg := r, value := (s.reg r).value } :: s.answers }
  else
    { s with
      answers := { reg := r, value := cutTo r (Config.freeRead s.freeCount) } :: s.answers
      freeCount := s.freeCount + 1 }

/-- Reset (R150): every register unwritten, nothing else. The classification is the machine's for life
(R67); what the host read and will do is the host's. -/
def State.resetBlock (s : State) : State :=
  { State.resetWith s.classTable with
    pending := s.pending
    answers := s.answers
    freeCount := s.freeCount }

/-- Marks a register as written, with the value it holds. -/
def markWritten {w : Nat} (r : Reg w) : Reg w := { r with written := true }

/-- Every input register written, with the value it holds (R151: what the host must have done before a
command; log 5). -/
def State.withInputsWritten (s : State) : State :=
  { s with
    coef := Vector.ofFn fun i => markWritten s.coef[i]
    preoffIn := Vector.ofFn fun j => markWritten s.preoffIn[j]
    postoffIn := Vector.ofFn fun j => markWritten s.postoffIn[j]
    validIn := markWritten s.validIn
    modeIn := markWritten s.modeIn
    devid := markWritten s.devid
    opf := markWritten s.opf
    opv := markWritten s.opv
    opn := markWritten s.opn
    codeIn := Vector.ofFn fun i => markWritten s.codeIn[i] }

end Sys2Proof.Machine
end

