-- ==== Sys2Proof/Machine/Step.lean ====
section
/-! DEFINITION. One step serves the host's next access; a command is one indivisible step (R45). -/

namespace Sys2Proof.Machine

/-- What a request does to the block. -/
def serve (q : Request) (s : State) : Host.Outcome State Fault Refusal :=
  match q with
  | .store r v => .next (s.writeInput r v)
  | .command w i => exec i (s.latchCommand w)
  | .load r => .next (s.answerRead r)
  | .reset => .next s.resetBlock
  | .refuse why => .refused why

/-- One step: the first pending access is taken off the list and served (R45). With none, the block is
idle and nothing changes (R20, R143). -/
def step (s : State) : Host.Outcome State Fault Refusal :=
  match s.pending with
  | [] => .next s
  | e :: rest => serve (request e) { s with pending := rest }

/-- The state in which the host's next access writes the word `w` to `CMD`, the input registers having
been written before as R151 asks (log 5). -/
def State.withFetchWord (s : State) (nbits w : Nat) : State :=
  { s.withInputsWritten with
    pending := .write RegName.cmd.number (w % 2 ^ nbits) :: s.pending }

end Sys2Proof.Machine
end

