-- ==== Sys2Proof/Machine/Assembler.lean ====
section
/-! DEFINITION. The assembler lines of R68 and the pseudo-instructions of R69, as the host accesses they
stand for. -/

namespace Sys2Proof.Machine

/-- The mnemonics of R68. -/
inductive Mnemonic where
  | bitrev
  | enccL
  | enccM
  | enco
  | packL
  | packM
  | build
  deriving DecidableEq, Repr

/-- The canonical command word of a mnemonic (R51). -/
def canonicalWord : Mnemonic → CommandWord
  | .bitrev => 0x00
  | .enccL => 0x05
  | .enccM => 0x06
  | .enco => 0x08
  | .packL => 0x0D
  | .packM => 0x0E
  | .build => 0x10

/-- A float value of a line: 'a float value is written as a decimal or as a `0x` binary32 pattern'
(R68). -/
inductive FloatLiteral where
  | pattern (p : Word)
  /-- One zero only: which pattern it stands for is log 19 (DESIGN CHOICE). -/
  | decimal (x : ℚ)
  deriving DecidableEq, Repr

/-- One assembler line (R68) or pseudo-instruction (R69). `wrFloat` is a `WR` of a float register. -/
inductive AsmLine where
  | wr (r : InReg) (v : Nat)
  | wrFloat (r : InReg) (c : FloatLiteral)
  | command (m : Mnemonic)
  | rd (r : RegName)
  | encc (v : Variant)
  | pack (v : Variant)
  | ldmat (lits : Vector FloatLiteral 9)
  | ldoff (p q : Vector FloatLiteral 3)
  | ldcodes (codes : Vector Code16 9)
  deriving DecidableEq, Repr

/-- `WR` of an input register, as a host access. -/
def wrEvent (r : InReg) (v : Nat) : HostEvent := .write (RegName.inp r).number v

/-- A write of `CMD`, as a host access (R24). -/
def commandEvent (w : CommandWord) : HostEvent := .write RegName.cmd.number w.toNat

/-- The word `ENCC v` stands for (R69). -/
def enccWord : Variant → CommandWord
  | .legacyFamily => 0x05
  | .modernFamilyA => 0x06
  | .modernFamilyB => 0x07

/-- The word `PACK v` stands for (R69). -/
def packWord : Variant → CommandWord
  | .legacyFamily => 0x0D
  | .modernFamilyA => 0x0E
  | .modernFamilyB => 0x0F

/-- The largest exponent field up to `n` whose normal numbers reach down to `a`, or 0 (R66). -/
def exponentUpTo (a : ℚ) : Nat → Nat
  | 0 => 0
  | n + 1 => if (2 : ℚ) ^ ((n : ℤ) + 1 - 127) ≤ a then n + 1 else exponentUpTo a n

/-- Rounding to the nearest integer, a tie to the even one. PRESUMED (log 10). -/
def roundHalfEven (y : ℚ) : ℕ :=
  let f := ⌊y⌋.toNat
  if y - f < 1 / 2 then f else if 1 / 2 < y - f then f + 1 else f + f % 2

/-- The binary32 pattern nearest to a decimal (R66, R68). The patterns of the non-negative numbers are
numbered in the order of their values. PRESUMED (log 10).

DESIGN CHOICE (log 19): R68 does not say which of the two zero patterns a decimal zero stands for. A decimal is
a rational here, which has one zero, and it stands for `0x00000000`; the pattern `0x80000000` is written as a
pattern. A negative decimal too small for any other pattern stands for `0x80000000`. -/
def nearestPattern (x : ℚ) : Word :=
  let a := |x|
  let e := exponentUpTo a 254
  let n := roundHalfEven (a / (2 : ℚ) ^ ((max e 1 : ℕ) - 150 : ℤ))
  let p := min ((max e 1 - 1) * 2 ^ 23 + n) 0x7F800000
  BitVec.ofNat 32 (if x < 0 then p + 2 ^ 31 else p)

/-- The pattern a float value stands for: itself, or the one nearest to the decimal (R68). -/
def FloatLiteral.word : FloatLiteral → Word
  | .pattern p => p
  | .decimal x => nearestPattern x

/-- The host accesses of a line (R68, R69). -/
def assemble : AsmLine → List HostEvent
  | .wr r v => [wrEvent r v]
  | .wrFloat r c => [wrEvent r c.word.toNat]
  | .command m => [commandEvent (canonicalWord m)]
  | .rd r => [.read r.number]
  | .encc v => [commandEvent (enccWord v)]
  | .pack v => [commandEvent (packWord v)]
  | .ldmat lits => (List.finRange 9).map fun i => wrEvent (.coef i) lits[i].word.toNat
  | .ldoff p q =>
    ((List.finRange 3).map fun j => wrEvent (.preoffIn j) p[j].word.toNat)
      ++ (List.finRange 3).map fun j => wrEvent (.postoffIn j) q[j].word.toNat
  | .ldcodes codes => (List.finRange 9).map fun i => wrEvent (.codeIn i) codes[i].toNat

end Sys2Proof.Machine
end

