-- ==== Sys2Proof/Machine/Instances.lean ====
section
/-! DEFINITION. Several instances of the block (R48, R142): each has its own copy of every register and its
own host, and a step of one is a step of that state alone. -/

namespace Sys2Proof.Machine

/-- The instances, by position. Instances have no identifiers of their own (R142). -/
abbrev Instances := List State

/-- One step of the instance at position `k`. A position with no instance has no host that could act, so
nothing happens.

DESIGN CHOICE (log 16): where the access of the instance at `k` is refused, this step of the collection is
refused and answers no collection. The spec gives that instance no meaning from there on and does not say
how a joint run goes on; a step of any other instance of `l` stays what it was. -/
def stepInstance (k : Nat) (l : Instances) : Host.Outcome Instances Fault Refusal :=
  match l[k]? with
  | none => .next l
  | some s =>
    match step s with
    | .next t => .next (l.set k t)
    | .fault f => .fault f
    | .refused r => .refused r

end Sys2Proof.Machine
end

