-- ==== Sys2Proof/Machine/Readback.lean ====
section
/-! DEFINITION. The inverses of the coefficient encoders that R85 derives, and the overflow sets of R81.
They are the spec's inverses of its own encoders, not the way the display hardware reads a code (N9), and no
operation uses them. -/

namespace Sys2Proof.Machine

/-- `dec12(c)` (R85). -/
def dec12 (c : Code12) : ℚ :=
  (if c.toNat < 2048 then (c.toNat : ℚ) else (c.toNat : ℚ) - 4096) / 1024

/-- Field `S` of a `code16` (R54). -/
def signField (c : Code16) : Bool := c.getLsbD 15

/-- Field `E` of a `code16` (R54). -/
def exponentField (c : Code16) : Nat := (c.extractLsb' 12 3).toNat

/-- Field `M` of a `code16` (R54). -/
def mantissaField (c : Code16) : Nat := (c.extractLsb' 3 9).toNat

/-- `dec16(c)` (R85); none for the exponents 4 and 5, which `enc16` never produces. -/
def dec16 (c : Code16) : Option ℚ :=
  let sign := signFactor (signField c)
  let m := mantissaField c
  match exponentField c with
  | 7 => some (sign * (1 + ((m % 256 : ℕ) : ℚ) / 256))
  | 6 => some (sign * (2 + ((m % 256 : ℕ) : ℚ) / 256))
  | 5 => none
  | 4 => none
  | e => some (sign * ((m : ℚ) / 512) * (1 / 2 ^ e))

/-- Whether a clipped magnitude lies in a rounding-overflow set of R81, given there as intervals. -/
def inOverflowSet (a : ℚ) : Bool :=
  decide ((∃ e : Fin 4, (1 - 1 / 1024) / 2 ^ (e : ℕ) ≤ a ∧ a < 1 / 2 ^ (e : ℕ))
    ∨ ((1023 : ℚ) / 512 ≤ a ∧ a < 2) ∨ ((1535 : ℚ) / 512 ≤ a ∧ a ≤ Params.mClip))

/-- `rhu(y)`, round half up (R82). -/
def roundHalfUp (y : ℚ) : ℤ := ⌊y⌋ + if 1 / 2 ≤ y - ⌊y⌋ then 1 else 0

end Sys2Proof.Machine
end

