-- ==== Sys2Proof/WellFormed.lean ====
section
/-! DEFINITION. What a host may present to the block: a command that is not reserved (R62), and an access
that names a register the access right allows (R32, R44) with a value that fits it (R42). Types already
bound the fields of a command; these are the checks that types do not make. -/

namespace Sys2Proof

/-- A command a host may issue: 'A host must not write one', of the reserved words (R62). -/
def Instr.wellFormed : Instr → Bool
  | .bitrev _ | .enccL | .enccM _ | .enco _ | .packL | .packM _ | .build _ => true
  | .reservedEncc0 | .reservedPack0 | .reservedOp5 _ | .reservedOp67 _ _ => false

/-- An access a host may make (R32, R42, R44, R62). -/
def HostEvent.wellFormed : HostEvent → Bool
  | .write n v =>
    match RegName.ofNumber n with
    | some (.inp r) => v < 2 ^ r.width
    | some .cmd => v < 2 ^ 5 && (decode (BitVec.ofNat 5 v)).wellFormed
    | some (.out _) => false
    | none => false
  | .read n => (RegName.ofNumber n).isSome
  | .reset => true

end Sys2Proof
end

