-- ==== Sys2Proof/Safety.lean ====
section
/-! DEFINITION. What the host owes the block (R151) and what a state of the block keeps (R22, R118), in the
terms the statements use: which registers a command reads and writes (R152, R119), when it completes, and
the invariant of the output registers. -/

namespace Sys2Proof.Machine

/-- The registers of a group, by index. -/
def coefRegs : List InReg := (List.finRange 9).map .coef

/-- `CODE_IN[0..8]`. -/
def codeInRegs : List InReg := (List.finRange 9).map .codeIn

/-- `PREOFF_IN[0..2]` and `POSTOFF_IN[0..2]`. -/
def offsetInRegs : List InReg := (List.finRange 3).map .preoffIn ++ (List.finRange 3).map .postoffIn

/-- `CSC_COEFF[0..5]`. -/
def coeffWordRegs : List OutReg := (List.finRange 6).map .cscCoeff

/-- `CSC_PREOFF[0..2]` and `CSC_POSTOFF[0..2]`. -/
def offsetWordRegs : List OutReg :=
  (List.finRange 3).map .cscPreoff ++ (List.finRange 3).map .cscPostoff

/-- The variant `BUILD` works with (R111). -/
def State.variant (s : State) : Option Variant := s.classify s.devid.value

/-- The float registers `BUILD` reads (the table of R119). -/
def buildFloatReads (s : State) : List InReg :=
  match s.variant with
  | none => []
  | some .legacyFamily => coefRegs
  | some .modernFamilyA => coefRegs ++ if offsetsValid s then offsetInRegs else []
  | some .modernFamilyB => coefRegs ++ if offsetsValid s then offsetInRegs else []

/-- Whether `BUILD` reads `MODE_IN` and writes `CSC_MODE` (the table of R119). -/
def buildUsesMode (s : State) : Bool :=
  match s.variant with
  | none => false
  | some .legacyFamily => false
  | some .modernFamilyA => modeValid s
  | some .modernFamilyB => modeValid s

/-- The float registers a command reads (R152, R119). -/
def floatReads (i : Instr) (s : State) : List InReg :=
  match i with
  | .enccL | .enccM _ | .enco _ => [.opf]
  | .build _ => buildFloatReads s
  | .bitrev _ | .packL | .packM _ => []
  | .reservedEncc0 | .reservedPack0 | .reservedOp5 _ | .reservedOp67 _ _ => []

/-- The other registers a command reads (R152, R119). -/
def plainReads (i : Instr) (s : State) : List InReg :=
  match i with
  | .bitrev _ => [.opv, .opn]
  | .packL | .packM _ => codeInRegs
  | .build _ => [.devid, .validIn] ++ if buildUsesMode s then [.modeIn] else []
  | .enccL | .enccM _ | .enco _ => []
  | .reservedEncc0 | .reservedPack0 | .reservedOp5 _ | .reservedOp67 _ _ => []

/-- All the registers a command reads, and must find written (R151, R152). -/
def commandReads (i : Instr) (s : State) : List InReg := plainReads i s ++ floatReads i s

/-- The registers `BUILD` writes (the table of R119). -/
def buildWrites (s : State) : List OutReg :=
  (if s.variant.isSome then coeffWordRegs else [])
    ++ (if offsetsValid s ∧ (s.variant = some .modernFamilyA ∨ s.variant = some .modernFamilyB)
        then offsetWordRegs else [])
    ++ (if buildUsesMode s then [.cscMode] else [])
    ++ [.validOut]

/-- The registers a command writes (R152, R119). -/
def commandWrites (i : Instr) (s : State) : List OutReg :=
  match i with
  | .bitrev _ | .enccL | .enccM _ | .enco _ => [.res]
  | .packL | .packM _ => coeffWordRegs
  | .build _ => buildWrites s
  | .reservedEncc0 | .reservedPack0 | .reservedOp5 _ | .reservedOp67 _ _ => []

/-- Every register the command reads is written (R151). -/
def inputsWritten (i : Instr) (s : State) : Bool :=
  (commandReads i s).all fun r => (s.input r).written

/-- Every value the command reads is legal: no NaN pattern in a float register (R31), and no bit count above
16 for `BITREV` (R63). -/
def operandsLegal (i : Instr) (s : State) : Bool :=
  ((floatReads i s).all fun r => (floatVal (s.input r).value).isSome)
    && match i with
      | .bitrev _ => decide (s.opn.value.toNat ≤ 16)
      | .enccL | .enccM _ | .enco _ | .packL | .packM _ | .build _ => true
      | .reservedEncc0 | .reservedPack0 | .reservedOp5 _ | .reservedOp67 _ _ => true

/-- When a command completes, said of the state and the command alone (R62, R132, R151). -/
def ready (i : Instr) (s : State) : Bool := i.wellFormed && inputsWritten i s && operandsLegal i s

/-- All registers of a group are written, or none is. -/
def allOrNone {w n : Nat} (v : Vector (Reg w) n) : Prop :=
  ∀ i j : Fin n, v[i].written = v[j].written

/-- The zero bits of the written output registers (R22): offset words hold 13 bits, the mode word one of its
two codes (R59), and `RES` no more than the 16 bits the widest unit result has. -/
def OutputFieldsLegal (s : State) : Prop :=
  (∀ j : Fin 3, (s.cscPreoff[j].written = true → s.cscPreoff[j].value.toNat < 2 ^ 13)
      ∧ (s.cscPostoff[j].written = true → s.cscPostoff[j].value.toNat < 2 ^ 13))
    ∧ (s.cscMode.written = true → s.cscMode.value = 0 ∨ s.cscMode.value = 2)
    ∧ (s.res.written = true → s.res.value.toNat < 2 ^ 16)

/-- The half of each row's second word that the layout leaves zero (R56, R57), once the words are written:
the same half in all three rows. -/
def CoeffLayoutLegal (s : State) : Prop :=
  (∃ k : Fin 6, s.cscCoeff[k].written = true) →
    (s.cscCoeff[1].value.toNat < 2 ^ 16 ∧ s.cscCoeff[3].value.toNat < 2 ^ 16
      ∧ s.cscCoeff[5].value.toNat < 2 ^ 16)
    ∨ (s.cscCoeff[1].value.toNat % 2 ^ 16 = 0 ∧ s.cscCoeff[3].value.toNat % 2 ^ 16 = 0
      ∧ s.cscCoeff[5].value.toNat % 2 ^ 16 = 0)

/-- No partial block (R118): the six coefficient words are written together, the six offset words too, and
offset words or a mode word stand only beside coefficient words and a validity echo (R110). -/
def BlockWhole (s : State) : Prop :=
  allOrNone s.cscCoeff ∧ allOrNone (s.cscPreoff ++ s.cscPostoff)
    ∧ (s.cscPreoff[0].written = true →
        s.cscCoeff[0].written = true ∧ s.validOut.written = true)
    ∧ (s.cscMode.written = true → s.cscCoeff[0].written = true ∧ s.validOut.written = true)

/-- The invariant of the output registers. It says nothing of the value of an unwritten register. -/
def OutputsLegal (s : State) : Prop := OutputFieldsLegal s ∧ CoeffLayoutLegal s ∧ BlockWhole s

end Sys2Proof.Machine
end

