-- ==== Sys2Proof/Certificates/Slice0/Obligations.lean ====
section
/-! DEFINITION. The statements for the provers. Each docstring names the rule of spec/ it formalises; where a
clause rests on the model's own choice it names the log entry. Nothing is stated about a free value, about
the classification of a particular identifier, or about the value of an unwritten register. -/

open Sys2Proof Sys2Proof.Machine

/-! ## Command words -/

/-- R51, R52, R62: the word of every row of the opcode table decodes to that row's command, whatever its
don't-care bits. -/
def Obligations.TableWordsDecode : Prop :=
  (∀ v : BitVec 2, decode (0b000#3 ++ v) = .bitrev v)
    ∧ decode 0b00100#5 = .reservedEncc0 ∧ decode 0b00101#5 = .enccL
    ∧ decode 0b00110#5 = .enccM .a ∧ decode 0b00111#5 = .enccM .b
    ∧ (∀ v : BitVec 2, decode (0b010#3 ++ v) = .enco v)
    ∧ decode 0b01100#5 = .reservedPack0 ∧ decode 0b01101#5 = .packL
    ∧ decode 0b01110#5 = .packM .a ∧ decode 0b01111#5 = .packM .b
    ∧ (∀ v : BitVec 2, decode (0b100#3 ++ v) = .build v)
    ∧ (∀ v : BitVec 2, decode (0b101#3 ++ v) = .reservedOp5 v)
    ∧ ∀ (o : BitVec 1) (v : BitVec 2), decode ((0b11#2 ++ o) ++ v) = .reservedOp67 o v

/-- R50 to R52: decoding and encoding are inverse to each other, for every command, don't-care bits
included, and for every word; the ill-formed commands are those of the reserved words of R62. -/
def Obligations.DecodeEncodeRoundTrip : Prop :=
  (∀ i : Instr, decode (encode i) = i)
    ∧ (∀ w : CommandWord, encode (decode w) = w)
    ∧ ∀ w : CommandWord, (decode w).wellFormed = false ↔ w = 0x04 ∨ w = 0x0C ∨ 0x14 ≤ w.toNat

/-- R24, R45: when the host's next access writes a command word to `CMD` (number 0x1E), the step is the
execution of the decoded command, in the state with that access taken off and the word in `CMD`. -/
def Obligations.StepRunsDecodedCommand : Prop :=
  (∀ (s : State) (w : CommandWord) (rest : List HostEvent),
      s.pending = .write 0x1E w.toNat :: rest →
        step s = exec (decode w) { s with pending := rest, cmd := Reg.ofWrite w })
    ∧ ∀ (s : State) (i : Instr) (rest : List HostEvent),
      s.pending = .write 0x1E (encode i).toNat :: rest →
        step s = exec i { s with pending := rest, cmd := Reg.ofWrite (encode i) }

/-- The host's placing of a command (log 5, a model choice): the next step runs exactly that command, on the
state whose input registers hold the same values, marked as written. -/
def Obligations.PlacedCommandRuns : Prop :=
  ∀ (s : State) (i : Instr),
    step (s.withFetchWord 8 (encode i).toNat) =
        exec i { s.withInputsWritten with cmd := Reg.ofWrite (encode i) }
      ∧ decodeTableWord 8 (encode i).toNat = some i
      ∧ ∀ r : InReg, (s.withInputsWritten.input r).value = (s.input r).value

/-- R24: the word written to `CMD` stands in it when the command has completed, and a host read of `CMD`
returns the last word written. -/
def Obligations.CommandRegisterReadsBack : Prop :=
  (∀ (s t : State) (w : CommandWord) (rest : List HostEvent),
      s.pending = .write 0x1E w.toNat :: rest → step s = .next t → t.cmd = Reg.ofWrite w)
    ∧ ∀ (s : State) (w : CommandWord) (rest : List HostEvent),
      s.pending = .read 0x1E :: rest → s.cmd = Reg.ofWrite w →
        ∃ t, step s = .next t ∧ t.cmd = s.cmd
          ∧ t.answers = { reg := .cmd, value := w.setWidth 32 } :: s.answers

/-! ## Host accesses -/

/-- R44: the register numbers. Every register has the number of the table, a number names at most one
register, the unused numbers are 0x1F and those above 0x2E, and an access to one of these is given no
meaning (it is refused). -/
def Obligations.RegisterNumbersExact : Prop :=
  (∀ i : Fin 9, (RegName.inp (.coef i)).number = 0x00 + i
      ∧ (RegName.inp (.codeIn i)).number = 0x15 + i)
    ∧ (∀ j : Fin 3, (RegName.inp (.preoffIn j)).number = 0x09 + j
      ∧ (RegName.inp (.postoffIn j)).number = 0x0C + j
      ∧ (RegName.out (.cscPreoff j)).number = 0x27 + j
      ∧ (RegName.out (.cscPostoff j)).number = 0x2A + j)
    ∧ (∀ k : Fin 6, (RegName.out (.cscCoeff k)).number = 0x21 + k)
    ∧ (RegName.inp .validIn).number = 0x0F ∧ (RegName.inp .modeIn).number = 0x10
    ∧ (RegName.inp .devid).number = 0x11 ∧ (RegName.inp .opf).number = 0x12
    ∧ (RegName.inp .opv).number = 0x13 ∧ (RegName.inp .opn).number = 0x14
    ∧ RegName.cmd.number = 0x1E ∧ (RegName.out .res).number = 0x20
    ∧ (RegName.out .cscMode).number = 0x2D ∧ (RegName.out .validOut).number = 0x2E
    ∧ (∀ (n : Nat) (r : RegName), RegName.ofNumber n = some r ↔ r.number = n)
    ∧ (∀ n : Nat, RegName.ofNumber n = none ↔ n = 0x1F ∨ 0x2F ≤ n)
    ∧ ∀ n : Nat, n = 0x1F ∨ 0x2F ≤ n → request (.read n) = .refuse .unusedRegister
      ∧ ∀ v : Nat, request (.write n v) = .refuse .unusedRegister

/-- R43, R42: a host write of an input register stores the value there and does nothing else. -/
def Obligations.HostWriteStoresOneRegister : Prop :=
  ∀ (s : State) (r : InReg) (v : Nat) (rest : List HostEvent),
    s.pending = .write (RegName.inp r).number v :: rest → v < 2 ^ r.width →
      ∃ t, step s = .next t
        ∧ t.reg (.inp r) = Reg.ofWrite (BitVec.ofNat 32 v)
        ∧ (∀ r' : RegName, r' ≠ .inp r → t.reg r' = s.reg r')
        ∧ t.pending = rest ∧ t.answers = s.answers ∧ t.freeCount = s.freeCount
        ∧ t.classTable = s.classTable

/-- R43, R34, U5: a host read returns the value of a written register, and some value of the register's width
otherwise; it changes no register. That the read of an unwritten register completes with a free value, and
counts it, is the form log 3 (DESIGN CHOICE) gives to U5; nothing is said of the value or the count. -/
def Obligations.HostReadAnswers : Prop :=
  ∀ (s : State) (r : RegName) (rest : List HostEvent),
    s.pending = .read r.number :: rest →
      ∃ t v, step s = .next t
        ∧ t.answers = { reg := r, value := v } :: s.answers
        ∧ v.toNat < 2 ^ r.width
        ∧ ((s.reg r).written = true → v = (s.reg r).value)
        ∧ (∀ r' : RegName, t.reg r' = s.reg r')
        ∧ t.pending = rest ∧ t.classTable = s.classTable

/-- R32, R44, R62, U1, U6, U7, and the width rule of R42 (log 6): the accesses to which the spec gives no
meaning are refused, each under its own name. -/
def Obligations.ForbiddenAccessesRefused : Prop :=
  ∀ (s : State) (rest : List HostEvent),
    (∀ (r : OutReg) (v : Nat), s.pending = .write (RegName.out r).number v :: rest →
        step s = .refused .hostWriteToOutput)
      ∧ (∀ n v : Nat, n = 0x1F ∨ 0x2F ≤ n → s.pending = .write n v :: rest →
        step s = .refused .unusedRegister)
      ∧ (∀ n : Nat, n = 0x1F ∨ 0x2F ≤ n → s.pending = .read n :: rest →
        step s = .refused .unusedRegister)
      ∧ (∀ (r : InReg) (v : Nat), 2 ^ r.width ≤ v →
        s.pending = .write (RegName.inp r).number v :: rest →
        step s = .refused .writeWiderThanRegister)
      ∧ (∀ v : Nat, 2 ^ 5 ≤ v → s.pending = .write 0x1E v :: rest →
        step s = .refused .writeWiderThanRegister)
      ∧ ∀ v : Nat, v = 0x04 ∨ v = 0x0C ∨ (0x14 ≤ v ∧ v ≤ 0x1F) →
        s.pending = .write 0x1E v :: rest → step s = .refused .reservedCommand

/-- R20, R143: with no access to serve, the block is idle and nothing changes. That this is a step, which
answers the same state, is the model's choice (log 4): by R158 the run has then ended. -/
def Obligations.IdleBlockKeepsState : Prop :=
  ∀ s : State, s.pending = [] → step s = .next s

/-- R69, and R43, R45, R68 for what the lines do: the pseudo-instructions. `LDMAT`, `LDOFF` and `LDCODES` are
their lines in order; serving these writes exactly the registers named; and `ENCC v` and `PACK v` stand for
the words the rule gives. A float value is a pattern or a decimal; which pattern a decimal stands for
(`FloatLiteral.word`) is log 10 (PRESUMED) and, for zero, log 19 (DESIGN CHOICE), and nothing is stated about
it. -/
def Obligations.PseudoInstructionsLoad : Prop :=
  (∀ m : Vector FloatLiteral 9, assemble (.ldmat m) =
      [.write 0x00 m[0].word.toNat, .write 0x01 m[1].word.toNat, .write 0x02 m[2].word.toNat,
        .write 0x03 m[3].word.toNat, .write 0x04 m[4].word.toNat, .write 0x05 m[5].word.toNat,
        .write 0x06 m[6].word.toNat, .write 0x07 m[7].word.toNat, .write 0x08 m[8].word.toNat])
    ∧ (∀ p q : Vector FloatLiteral 3, assemble (.ldoff p q) =
      [.write 0x09 p[0].word.toNat, .write 0x0A p[1].word.toNat, .write 0x0B p[2].word.toNat,
        .write 0x0C q[0].word.toNat, .write 0x0D q[1].word.toNat, .write 0x0E q[2].word.toNat])
    ∧ (∀ k : Vector Code16 9, assemble (.ldcodes k) =
      [.write 0x15 k[0].toNat, .write 0x16 k[1].toNat, .write 0x17 k[2].toNat,
        .write 0x18 k[3].toNat, .write 0x19 k[4].toNat, .write 0x1A k[5].toNat,
        .write 0x1B k[6].toNat, .write 0x1C k[7].toNat, .write 0x1D k[8].toNat])
    ∧ (∀ (s : State) (m : Vector FloatLiteral 9) (rest : List HostEvent),
      s.pending = assemble (.ldmat m) ++ rest →
        core.run 9 s =
          .next { s with coef := Vector.ofFn fun i => Reg.ofWrite m[i].word, pending := rest })
    ∧ (∀ (s : State) (p q : Vector FloatLiteral 3) (rest : List HostEvent),
      s.pending = assemble (.ldoff p q) ++ rest →
        core.run 6 s =
          .next { s with
            preoffIn := Vector.ofFn fun j => Reg.ofWrite p[j].word
            postoffIn := Vector.ofFn fun j => Reg.ofWrite q[j].word
            pending := rest })
    ∧ (∀ (s : State) (k : Vector Code16 9) (rest : List HostEvent),
      s.pending = assemble (.ldcodes k) ++ rest →
        core.run 9 s =
          .next { s with codeIn := Vector.ofFn fun i => Reg.ofWrite k[i], pending := rest })
    ∧ assemble (.encc .legacyFamily) = [.write 0x1E 0x05]
    ∧ assemble (.encc .modernFamilyA) = [.write 0x1E 0x06]
    ∧ assemble (.encc .modernFamilyB) = [.write 0x1E 0x07]
    ∧ assemble (.pack .legacyFamily) = [.write 0x1E 0x0D]
    ∧ assemble (.pack .modernFamilyA) = [.write 0x1E 0x0E]
    ∧ assemble (.pack .modernFamilyB) = [.write 0x1E 0x0F]

/-! ## Reset -/

/-- R33, R150: reset, at the start or as an event, leaves every register unwritten and the block idle. That it
may come as an event between accesses, and then changes neither the classification nor the accesses the host
still makes, is the model's reading (log 12, DEDUCED). -/
def Obligations.ResetLeavesRegistersUnwritten : Prop :=
  (∀ r : RegName, (State.reset.reg r).written = false)
    ∧ State.reset.pending = []
    ∧ ∀ (s : State) (rest : List HostEvent), s.pending = .reset :: rest →
      ∃ t, step s = .next t ∧ (∀ r : RegName, (t.reg r).written = false)
        ∧ t.pending = rest ∧ t.classTable = s.classTable

/-- R34, R151: right after reset every command of the table is refused, since no input register has been
written. -/
def Obligations.CommandsRefusedAfterReset : Prop :=
  ∀ i : Instr, i.wellFormed = true → exec i State.reset = .refused .unwrittenInput

/-- R33: the invariant of the output registers holds after reset, when every register is unwritten, whatever
value an unwritten register is given. -/
def Obligations.OutputInvariantAtReset : Prop := OutputsLegal State.reset

/-! ## Whole machine -/

/-- R22, R59, R56, R57, R118: every step keeps the invariant of the output registers, from every state that
meets it: the zero bits of written registers stay zero, the layout halves stay empty, no block is partial. -/
def Obligations.StepKeepsOutputInvariant : Prop :=
  ∀ s t : State, OutputsLegal s → step s = .next t → OutputsLegal t

/-- R67: the classification is fixed for the life of the machine. -/
def Obligations.ClassificationFixed : Prop :=
  ∀ s t : State, step s = .next t → t.classTable = s.classTable

/-- R130, R132: a step answers a state or is refused, and it is refused for the reasons of the table alone, each
with its cause in the access served: a reserved word, a count above 16, a NaN pattern or an unwritten register
that the command reads, a write of an output register, an unused number. The last cause, a value wider than
its register, is log 6 (DESIGN CHOICE). -/
def Obligations.StepRefusalsHaveCause : Prop :=
  ∀ s : State, (∃ t, step s = .next t)
    ∨ ∃ (e : HostEvent) (rest : List HostEvent) (why : Refusal),
      s.pending = e :: rest ∧ step s = .refused why
        ∧ ((why = .reservedCommand ∧ ∃ w : CommandWord,
              e = .write 0x1E w.toNat ∧ (w = 0x04 ∨ w = 0x0C ∨ 0x14 ≤ w.toNat))
          ∨ (why = .bitrevCountOutOfContract ∧ ∃ (w : CommandWord) (v : BitVec 2),
              e = .write 0x1E w.toNat ∧ decode w = .bitrev v ∧ 16 < s.opn.value.toNat)
          ∨ (why = .nanOperand ∧ ∃ (w : CommandWord) (r : InReg),
              e = .write 0x1E w.toNat ∧ r ∈ floatReads (decode w) s
                ∧ floatVal (s.input r).value = none)
          ∨ (why = .unwrittenInput ∧ ∃ (w : CommandWord) (r : InReg),
              e = .write 0x1E w.toNat ∧ r ∈ commandReads (decode w) s
                ∧ (s.input r).written = false)
          ∨ (why = .hostWriteToOutput ∧ ∃ (r : OutReg) (v : Nat),
              e = .write (RegName.out r).number v)
          ∨ (why = .unusedRegister ∧ ∃ n : Nat, (n = 0x1F ∨ 0x2F ≤ n)
              ∧ (e = .read n ∨ ∃ v : Nat, e = .write n v))
          ∨ (why = .writeWiderThanRegister ∧
              ((∃ (r : InReg) (v : Nat), e = .write (RegName.inp r).number v ∧ 2 ^ r.width ≤ v)
                ∨ ∃ v : Nat, e = .write 0x1E v ∧ 2 ^ 5 ≤ v)))

/-- R23, R32, R152, R119: the frame of every command. It changes no input register, not `CMD`, nothing of the
host's, and no output register but those the table of R152 and R119 lists; those it has written. -/
def Obligations.CommandFrame : Prop :=
  ∀ (i : Instr) (s t : State), exec i s = .next t →
    (∀ r : InReg, t.input r = s.input r)
      ∧ (∀ r : OutReg, r ∉ commandWrites i s → t.output r = s.output r)
      ∧ (∀ r : OutReg, r ∈ commandWrites i s → (t.output r).written = true)
      ∧ t.cmd = s.cmd ∧ t.classTable = s.classTable ∧ t.pending = s.pending
      ∧ t.answers = s.answers ∧ t.freeCount = s.freeCount

/-- R28, R121: what a command writes is a function of the command and of the input registers it reads. Two
states that agree on these, and on the classification, complete together and write the same values. -/
def Obligations.CommandDependsOnItsReadsOnly : Prop :=
  ∀ (i : Instr) (s s' t : State), exec i s = .next t →
    (∀ r ∈ commandReads i s, s'.input r = s.input r) → s'.classTable = s.classTable →
      ∃ t', exec i s' = .next t' ∧ commandWrites i s' = commandWrites i s
        ∧ ∀ r ∈ commandWrites i s, t'.output r = t.output r

/-- R43: the same command once more, with nothing else in between, changes nothing. -/
def Obligations.RepeatedCommandChangesNothing : Prop :=
  ∀ (i : Instr) (s t : State), exec i s = .next t → exec i t = .next t

/-- R151, R132: a command completes exactly when it is not reserved, the registers it reads are written, and
the values it reads are legal. -/
def Obligations.CommandCompletesIffReady : Prop :=
  ∀ (i : Instr) (s : State), ready i s = true ↔ ∃ t, exec i s = .next t

/-- R135 item 1, R132: the order of the refusals. An unwritten register the command reads is reported before
an illegal value, and an illegal value under its own name. -/
def Obligations.RefusalsInOrder : Prop :=
  ∀ (i : Instr) (s : State), i.wellFormed = true →
    (inputsWritten i s = false → exec i s = .refused .unwrittenInput)
      ∧ (inputsWritten i s = true → operandsLegal i s = false →
          exec i s = .refused
            (match i with
            | .bitrev _ => .bitrevCountOutOfContract
            | _ => .nanOperand))

/-- R62, U1: the reserved words, 0x04, 0x0C and 0x14 to 0x1F, and so the four reserved rows, stop in every
state. -/
def Obligations.ReservedCommandsRefused : Prop :=
  (∀ (s : State) (w : CommandWord), w = 0x04 ∨ w = 0x0C ∨ 0x14 ≤ w.toNat →
      exec (decode w) s = .refused .reservedCommand)
    ∧ ∀ (s : State) (o : BitVec 1) (v : BitVec 2),
    exec .reservedEncc0 s = .refused .reservedCommand
      ∧ exec .reservedPack0 s = .refused .reservedCommand
      ∧ exec (.reservedOp5 v) s = .refused .reservedCommand
      ∧ exec (.reservedOp67 o v) s = .refused .reservedCommand

/-- R48, R142: a step of one instance leaves every other instance as it was, and steps of two instances
give the same states in either order. What follows for the others when an access of one is refused is log 16
(DESIGN CHOICE), and nothing is stated about it. -/
def Obligations.InstancesIsolated : Prop :=
  (∀ (k j : Nat) (l l' : Instances), stepInstance k l = .next l' → j ≠ k → l'[j]? = l[j]?)
    ∧ ∀ (k j : Nat) (l a b : Instances), k ≠ j → stepInstance k l = .next a →
      stepInstance j l = .next b →
      ∃ z, stepInstance j a = .next z ∧ stepInstance k b = .next z

/-! ## Bit reversal -/

/-- R71: bit `i` of the result is bit `n-1-i` of the value for `i < n`, and 0 above. -/
def Obligations.BitrevMirrorsField : Prop :=
  ∀ v n i : Nat, n ≤ 16 →
    (bitrev v n).testBit i = if i < n then v.testBit (n - 1 - i) else false

/-- R72: reversing twice gives the field back, not the bits above it. -/
def Obligations.BitrevSelfInverse : Prop :=
  ∀ v n : Nat, n ≤ 16 → bitrev (bitrev v n) n = v % 2 ^ n

/-- R70: the words `000 xx` are `BITREV`, which completes with `RES` the reversal of the low `OPN` bits of
`OPV`, bit for bit, and nothing else changed; with `OPN` above 16 it is refused. -/
def Obligations.BitrevWritesRes : Prop :=
  (∀ v : BitVec 2, decode (0b000#3 ++ v) = .bitrev v)
    ∧ bitrev 0x2C5 10 = 0x28D
    ∧ ∀ (var : BitVec 2) (s : State), s.opv.written = true → s.opn.written = true →
    (s.opn.value.toNat ≤ 16 →
        ∃ r : Word, exec (.bitrev var) s = .next { s with res := Reg.ofWrite r }
          ∧ r.toNat = bitrev s.opv.value.toNat s.opn.value.toNat
          ∧ ∀ i : Nat, r.getLsbD i =
              (decide (i < s.opn.value.toNat) && s.opv.value.getLsbD (s.opn.value.toNat - 1 - i)))
      ∧ (16 < s.opn.value.toNat → exec (.bitrev var) s = .refused .bitrevCountOutOfContract)

/-! ## Floats -/

/-- R66: the value of every binary32 pattern, put together from sign, exponent field and fraction field; an
infinity counts as a magnitude above every clip constant. -/
def Obligations.FloatPatternValue : Prop :=
  (∀ (clip : ℚ) (neg : Bool), clippedMagnitude clip (.infinite neg) = clip)
    ∧ ∀ (s : Bool) (x f : ℕ) (p : Word), x < 2 ^ 8 → f < 2 ^ 23 →
    p.toNat = s.toNat * 2 ^ 31 + x * 2 ^ 23 + f →
      (x = 0xFF → f = 0 → floatVal p = some (.infinite s))
        ∧ (x = 0xFF → f ≠ 0 → floatVal p = none)
        ∧ (x = 0 → floatVal p = some (.finite ((-1) ^ s.toNat * (f / 2 ^ 149))))
        ∧ (x ≠ 0xFF → x ≠ 0 →
          floatVal p = some (.finite ((-1) ^ s.toNat * 2 ^ x * ((2 ^ 23 + f) / 2 ^ 150))))

/-- R66: flipping bit 31 of a pattern gives the value of the other sign; a NaN pattern stays one. -/
def Obligations.FloatSignBitNegates : Prop :=
  ∀ p : Word, floatVal (p ^^^ 0x80000000#32) = (floatVal p).map negVal

/-! ## The coefficient encoder -/

/-- R77: the word 0x05 is `ENCC.L`, which completes with `RES` the 12-bit code of `OPF`, zero-extended, and
nothing else changed (1.0 gives 0x400); a NaN pattern is refused. -/
def Obligations.EnccLWritesRes : Prop :=
  decode 0b00101#5 = .enccL
    ∧ (floatVal 0x3F800000).map enc12 = some 0x400
    ∧ ∀ s : State, s.opf.written = true →
    (∀ x, floatVal s.opf.value = some x →
        exec .enccL s = .next { s with res := Reg.ofWrite ((enc12 x).setWidth 32) })
      ∧ (floatVal s.opf.value = none → exec .enccL s = .refused .nanOperand)

/-- R80: the words 0x06 and 0x07 are `ENCC.M`, which completes under both of them with `RES` the 16-bit code
of `OPF`, zero-extended, and nothing else changed (0.5 gives 0x0800); a NaN pattern is refused. -/
def Obligations.EnccMWritesRes : Prop :=
  (decode 0b00110#5 = .enccM .a ∧ decode 0b00111#5 = .enccM .b)
    ∧ (floatVal 0x3F000000).map enc16 = some 0x0800
    ∧ ∀ (fam : ModernFamily) (s : State), s.opf.written = true →
    (∀ x, floatVal s.opf.value = some x →
        exec (.enccM fam) s = .next { s with res := Reg.ofWrite ((enc16 x).setWidth 32) })
      ∧ (floatVal s.opf.value = none → exec (.enccM fam) s = .refused .nanOperand)

/-- R78: the closed form of `enc12`, the range of its magnitude, the clipped codes of the infinities, and the
codes that are never produced. -/
def Obligations.Enc12ClosedForm : Prop :=
  (∀ x : ℚ, 0 ≤ x →
      ((enc12 (.finite x)).toNat : ℤ) = ⌊min |x| (1999 / 1000) * 1024⌋)
    ∧ (∀ x : ℚ, x < 0 →
      ((enc12 (.finite x)).toNat : ℤ) = (4096 - ⌊min |x| (1999 / 1000) * 1024⌋) % 4096)
    ∧ (∀ x : ℚ, 0 ≤ ⌊min |x| (1999 / 1000) * 1024⌋ ∧ ⌊min |x| (1999 / 1000) * 1024⌋ ≤ 2046)
    ∧ enc12 (.infinite false) = 0x7FE ∧ enc12 (.infinite true) = 0x802
    ∧ ∀ x : FloatVal, enc12 x ≠ 0x7FF ∧ enc12 x ≠ 0x800 ∧ enc12 x ≠ 0x801

/-- R82: the closed form of `enc16`, below 1 with `E` the leading zeros of the fraction (at most 3), from 1 up
with the integer part as exponent seed, and the code of a non-zero input too small for any mantissa bit. -/
def Obligations.Enc16ClosedForm : Prop :=
  (∀ (x a : ℚ) (z : ℕ), x ≠ 0 → a = min |x| (2999 / 1000) → a < 1 →
      1 / 2 ^ (z + 1) ≤ a → a < 1 / 2 ^ z →
      (signField (enc16 (.finite x)) = true ↔ x < 0)
        ∧ exponentField (enc16 (.finite x)) = min z 3
        ∧ (mantissaField (enc16 (.finite x)) : ℤ) = roundHalfUp (512 * a * 2 ^ min z 3) % 512
        ∧ (enc16 (.finite x)).extractLsb' 0 3 = 0)
    ∧ (∀ x a : ℚ, a = min |x| (2999 / 1000) → 1 ≤ a →
      (signField (enc16 (.finite x)) = true ↔ x < 0)
        ∧ (exponentField (enc16 (.finite x)) : ℤ) = 8 - ⌊a⌋
        ∧ (roundHalfUp (256 * (a - ⌊a⌋)) ≤ 255 →
            (mantissaField (enc16 (.finite x)) : ℤ) = 0x100 + roundHalfUp (256 * (a - ⌊a⌋)))
        ∧ (roundHalfUp (256 * (a - ⌊a⌋)) = 256 → mantissaField (enc16 (.finite x)) = 0x100)
        ∧ (enc16 (.finite x)).extractLsb' 0 3 = 0)
    ∧ (∀ x : ℚ, x ≠ 0 → |x| < 1 / 2 ^ 13 →
      enc16 (.finite x) = if x < 0 then 0xB000 else 0x3000)
    ∧ enc16 (.finite 0) = 0

/-- R81: in the rounding-overflow sets the carry is lost: below 1 the mantissa is 0 and the exponent stays;
from 1 up the code is that of the bare integer part. -/
def Obligations.Enc16OverflowSets : Prop :=
  (∀ (e : Fin 4) (a : ℚ), (1 - 1 / 1024) / 2 ^ (e : ℕ) ≤ a → a < 1 / 2 ^ (e : ℕ) →
      exponentField (enc16 (.finite a)) = e ∧ mantissaField (enc16 (.finite a)) = 0)
    ∧ (∀ a : ℚ, 1023 / 512 ≤ a → a < 2 → enc16 (.finite a) = enc16 (.finite 1))
    ∧ ∀ a : ℚ, 1535 / 512 ≤ a → a ≤ 2999 / 1000 → enc16 (.finite a) = enc16 (.finite 2)

/-- R83: sign symmetry of both families. -/
def Obligations.CoefficientSignSymmetry : Prop :=
  (∀ x : FloatVal, enc12 (negVal x) = negWord (enc12 x))
    ∧ (∀ x : FloatVal, x ≠ .finite 0 → enc16 (negVal x) = enc16 x ^^^ 0x8000#16)
    ∧ enc12 (.finite 0) = 0 ∧ enc16 (.finite 0) = 0

/-- R84: clipping of both families, the infinities included (R31). -/
def Obligations.CoefficientClipping : Prop :=
  (∀ x : ℚ, 1999 / 1000 ≤ x → enc12 (.finite x) = 0x7FE)
    ∧ (∀ x : ℚ, x ≤ -(1999 / 1000) → enc12 (.finite x) = 0x802)
    ∧ (∀ x : ℚ, 2999 / 1000 ≤ x → enc16 (.finite x) = 0x6800)
    ∧ (∀ x : ℚ, x ≤ -(2999 / 1000) → enc16 (.finite x) = 0xE800)
    ∧ enc12 (.infinite false) = 0x7FE ∧ enc12 (.infinite true) = 0x802
    ∧ enc16 (.infinite false) = 0x6800 ∧ enc16 (.infinite true) = 0xE800

/-- R53, R54: the codes that are never produced: `code12` 0x7FF to 0x801, and of `code16` the exponents 4 and
5 and any low bit. -/
def Obligations.CoefficientCodeRanges : Prop :=
  ∀ x : FloatVal,
    ((enc12 x).toNat ≤ 0x7FE ∨ 0x802 ≤ (enc12 x).toNat)
      ∧ (enc16 x).extractLsb' 0 3 = 0
      ∧ exponentField (enc16 x) ≠ 4 ∧ exponentField (enc16 x) ≠ 5

/-- R85: the round-trip bounds: one step by truncation for `enc12`, always; half a step scaled by the
exponent for `enc16`, outside the overflow sets of R81; inside these sets the bound fails (C4). -/
def Obligations.CoefficientRoundTripBound : Prop :=
  (∀ x : FloatVal,
      0 ≤ clippedMagnitude (1999 / 1000) x - |dec12 (enc12 x)|
        ∧ clippedMagnitude (1999 / 1000) x - |dec12 (enc12 x)| < 1 / 2 ^ 10)
    ∧ (∀ x : FloatVal, inOverflowSet (clippedMagnitude (2999 / 1000) x) = true →
      ∃ d, dec16 (enc16 x) = some d ∧ 1 / 2 ^ 9 < |clippedMagnitude (2999 / 1000) x - (|d|)|)
    ∧ ∀ x : FloatVal, inOverflowSet (clippedMagnitude (2999 / 1000) x) = false →
      ∃ d, dec16 (enc16 x) = some d
        ∧ (exponentField (enc16 x) ≤ 3 →
            |clippedMagnitude (2999 / 1000) x - (|d|)|
              ≤ 1 / 2 ^ 10 * (1 / 2 ^ exponentField (enc16 x)))
        ∧ (6 ≤ exponentField (enc16 x) →
            |clippedMagnitude (2999 / 1000) x - (|d|)| ≤ 1 / 2 ^ 9)

/-- R86: monotonicity in magnitude: of the codes of `enc12` as unsigned integers, and of the decoded values of
`enc16` outside the overflow sets of R81; inside them it fails. -/
def Obligations.CoefficientMonotonicity : Prop :=
  (∀ a b : ℚ, 0 ≤ a → a ≤ b → (enc12 (.finite a)).toNat ≤ (enc12 (.finite b)).toNat)
    ∧ (∃ a b d e : ℚ, 0 < a ∧ a ≤ b ∧ inOverflowSet b = true
      ∧ dec16 (enc16 (.finite a)) = some d ∧ dec16 (enc16 (.finite b)) = some e ∧ |e| < |d|)
    ∧ ∀ a b : ℚ, 0 < a → a ≤ b → inOverflowSet (min a (2999 / 1000)) = false →
      inOverflowSet (min b (2999 / 1000)) = false →
      ∃ d e, dec16 (enc16 (.finite a)) = some d ∧ dec16 (enc16 (.finite b)) = some e ∧ |d| ≤ |e|

/-- R87: the loop of `enc16` is over within 12 turns: a larger bound changes nothing, the window is full, and
at most three zeros are absorbed below 1. -/
def Obligations.Enc16LoopBounded : Prop :=
  (∀ (ge1 : Bool) (n : Nat) (s : Emission), s.k = 0 →
      emissionLoop ge1 (keptWindow ge1) (12 + n) s = emissionLoop ge1 (keptWindow ge1) 12 s
        ∧ (emissionLoop ge1 (keptWindow ge1) 12 s).k = keptWindow ge1)
    ∧ ∀ a : ℚ, 0 ≤ a → a < 1 → (emission a).e ≤ 3

/-! ## The offset encoder -/

/-- R90: the words `010 xx` are `ENCO`, which completes, whatever its don't-care bits, with `RES` the 13-bit
code of `OPF`, zero-extended, and nothing else changed (-0.25 gives 0x1800); a NaN pattern is refused. -/
def Obligations.EncoWritesRes : Prop :=
  (∀ v : BitVec 2, decode (0b010#3 ++ v) = .enco v)
    ∧ (floatVal 0xBE800000).map enc13 = some 0x1800
    ∧ ∀ (var : BitVec 2) (s : State), s.opf.written = true →
    (∀ x, floatVal s.opf.value = some x →
        exec (.enco var) s = .next { s with res := Reg.ofWrite ((enc13 x).setWidth 32) })
      ∧ (floatVal s.opf.value = none → exec (.enco var) s = .refused .nanOperand)

/-- R92: the closed form of `enc13`, its magnitude at most 8184, and the clipped codes of the infinities
(R95). -/
def Obligations.Enc13ClosedForm : Prop :=
  (∀ x : ℚ, 0 ≤ x → ((enc13 (.finite x)).toNat : ℤ) = roundHalfUp (8192 * min |x| (999 / 1000)))
    ∧ (∀ x : ℚ, x < 0 → ((enc13 (.finite x)).toNat : ℤ) =
      (8192 - roundHalfUp (8192 * min |x| (999 / 1000))) % 8192)
    ∧ (∀ x : ℚ, 0 ≤ roundHalfUp (8192 * min |x| (999 / 1000))
      ∧ roundHalfUp (8192 * min |x| (999 / 1000)) ≤ 8184)
    ∧ enc13 (.infinite false) = 0x1FF8 ∧ enc13 (.infinite true) = 0x0008

/-- R93: the offset codes do not decrease, and increase strictly when the inputs differ by a step. -/
def Obligations.OffsetMonotonicity : Prop :=
  ∀ a b : ℚ, 0 ≤ a → a ≤ b → b ≤ 999 / 1000 →
    (enc13 (.finite a)).toNat ≤ (enc13 (.finite b)).toNat
      ∧ (1 / 2 ^ 13 ≤ b - a → (enc13 (.finite a)).toNat < (enc13 (.finite b)).toNat)

/-- R94: bit 12 is a magnitude bit: a positive offset of 1/2 or more sets it, the code of `-x` is the negation
of the code of `x` in the same 13 bits, and so `1/2` and `-1/2` share a code, and `3/4` and `-1/4`. -/
def Obligations.OffsetUsesAllThirteenBits : Prop :=
  (∀ x : ℚ, 1 / 2 ≤ x → (enc13 (.finite x)).getLsbD 12 = true)
    ∧ (∀ x : FloatVal, enc13 (negVal x) = negWord (enc13 x))
    ∧ enc13 (.finite (1 / 2)) = enc13 (.finite (-(1 / 2)))
    ∧ enc13 (.finite (3 / 4)) = enc13 (.finite (-(1 / 4)))

/-! ## The packer -/

/-- R100, R101, R57: the word 0x0D is `PACK.L`, which completes with the six words of the legacy layout and
nothing else changed: in each row the second code high and the first low, and the third low in a word of its
own. -/
def Obligations.PackLWritesWords : Prop :=
  decode 0b01101#5 = .packL ∧ ∀ s : State, (∀ i : Fin 9, s.codeIn[i].written = true) →
    ∃ r : Vector Word 6,
      exec .packL s = .next { s with cscCoeff := Vector.ofFn fun j => Reg.ofWrite r[j] }
        ∧ r[0].toNat = s.codeIn[1].value.toNat * 2 ^ 16 + s.codeIn[0].value.toNat
        ∧ r[1].toNat = s.codeIn[2].value.toNat
        ∧ r[2].toNat = s.codeIn[4].value.toNat * 2 ^ 16 + s.codeIn[3].value.toNat
        ∧ r[3].toNat = s.codeIn[5].value.toNat
        ∧ r[4].toNat = s.codeIn[7].value.toNat * 2 ^ 16 + s.codeIn[6].value.toNat
        ∧ r[5].toNat = s.codeIn[8].value.toNat

/-- R103, R102, R56: the words 0x0E and 0x0F are `PACK.M`, which completes under both of them with the six
words of the modern layout and nothing else changed: in each row the first code high and the second low, and
the third high in a word of its own. -/
def Obligations.PackMWritesWords : Prop :=
  (decode 0b01110#5 = .packM .a ∧ decode 0b01111#5 = .packM .b)
    ∧ ∀ (fam : ModernFamily) (s : State), (∀ i : Fin 9, s.codeIn[i].written = true) →
    ∃ r : Vector Word 6,
      exec (.packM fam) s = .next { s with cscCoeff := Vector.ofFn fun j => Reg.ofWrite r[j] }
        ∧ r[0].toNat = s.codeIn[0].value.toNat * 2 ^ 16 + s.codeIn[1].value.toNat
        ∧ r[1].toNat = s.codeIn[2].value.toNat * 2 ^ 16
        ∧ r[2].toNat = s.codeIn[3].value.toNat * 2 ^ 16 + s.codeIn[4].value.toNat
        ∧ r[3].toNat = s.codeIn[5].value.toNat * 2 ^ 16
        ∧ r[4].toNat = s.codeIn[6].value.toNat * 2 ^ 16 + s.codeIn[7].value.toNat
        ∧ r[5].toNat = s.codeIn[8].value.toNat * 2 ^ 16

/-! ## The parameter builder -/

/-- R110, R112 to R115: `BUILD` for a modern device, under every command word of it and every setting of the
validity mask, whole: the coefficient words always, the six offset words and the mode word each under its
bit, the echo always, and nothing else changed. -/
def Obligations.BuildModernWrites : Prop :=
  ∀ (var : BitVec 2) (s : State) (v : Variant) (x : Fin 9 → FloatVal) (p q : Fin 3 → FloatVal),
    s.devid.written = true → s.validIn.written = true →
    s.classify s.devid.value = some v → (v = .modernFamilyA ∨ v = .modernFamilyB) →
    (∀ i : Fin 9, s.coef[i].written = true ∧ floatVal s.coef[i].value = some (x i)) →
    (s.validIn.value.getLsbD 1 = true → ∀ j : Fin 3,
      (s.preoffIn[j].written = true ∧ floatVal s.preoffIn[j].value = some (p j))
        ∧ s.postoffIn[j].written = true ∧ floatVal s.postoffIn[j].value = some (q j)) →
    (s.validIn.value.getLsbD 2 = true → s.modeIn.written = true) →
      exec (.build var) s = .next { s with
        cscCoeff := Vector.ofFn fun k =>
          Reg.ofWrite (packM (Vector.ofFn fun i => enc16 (x i)))[k]
        cscPreoff := if s.validIn.value.getLsbD 1 = true
          then Vector.ofFn fun j => Reg.ofWrite ((enc13 (p j)).setWidth 32) else s.cscPreoff
        cscPostoff := if s.validIn.value.getLsbD 1 = true
          then Vector.ofFn fun j => Reg.ofWrite ((enc13 (q j)).setWidth 32) else s.cscPostoff
        cscMode := if s.validIn.value.getLsbD 2 = true
          then Reg.ofWrite (if s.modeIn.value = 1 then 2 else 0) else s.cscMode
        validOut := Reg.ofWrite s.validIn.value }

/-- R117, R110: `BUILD` for a legacy device writes the legacy coefficient words and the echo, whatever the
validity bits say and whatever the offset and mode registers hold, written or not; nothing else changes. -/
def Obligations.BuildLegacyWrites : Prop :=
  ∀ (var : BitVec 2) (s : State) (x : Fin 9 → FloatVal),
    s.devid.written = true → s.validIn.written = true →
    s.classify s.devid.value = some .legacyFamily →
    (∀ i : Fin 9, s.coef[i].written = true ∧ floatVal s.coef[i].value = some (x i)) →
      exec (.build var) s = .next { s with
        cscCoeff := Vector.ofFn fun k =>
          Reg.ofWrite (packL (Vector.ofFn fun i => (enc12 (x i)).setWidth 16))[k]
        validOut := Reg.ofWrite s.validIn.value }

/-- R116, R115: `BUILD` for an unrecognised device writes the echo and nothing else, whatever the other input
registers hold, written or not. -/
def Obligations.BuildUnrecognisedEchoes : Prop :=
  ∀ (var : BitVec 2) (s : State), s.devid.written = true → s.validIn.written = true →
    s.classify s.devid.value = none →
      exec (.build var) s = .next { s with validOut := Reg.ofWrite s.validIn.value }

/-- R110, R118: `BUILD` is refused whole when a float register its path reads holds a NaN pattern, though
another register has a value; the NaN of a register that no executed line reads is not examined. -/
def Obligations.BuildRefusesNan : Prop :=
  ∀ (var : BitVec 2) (s : State) (v : Variant),
    s.classify s.devid.value = some v → inputsWritten (.build var) s = true →
      ((∃ i : Fin 9, floatVal s.coef[i].value = none) →
          exec (.build var) s = .refused .nanOperand)
        ∧ (v ≠ .legacyFamily → s.validIn.value.getLsbD 1 = true →
          (∃ j : Fin 3, floatVal s.preoffIn[j].value = none
            ∨ floatVal s.postoffIn[j].value = none) →
          exec (.build var) s = .refused .nanOperand)
        ∧ ((∀ i : Fin 9, floatVal s.coef[i].value ≠ none) →
          (v = .legacyFamily ∨ s.validIn.value.getLsbD 1 = false) →
          ∃ t, exec (.build var) s = .next t)

/-- R120: what `BUILD` writes equals what the unit operations give: each coefficient through `ENCC.L` or
`ENCC.M`, the low 16 bits of each `RES` through `PACK.L` or `PACK.M`, and each offset through `ENCO`; `BUILD`
itself touches neither `OPF`, `RES` nor `CODE_IN`. -/
def Obligations.BuildEqualsUnitOperations : Prop :=
  ∀ (var : BitVec 2) (s t : State) (v : Variant) (u : Fin 9 → State) (o o' : Fin 3 → State),
    exec (.build var) s = .next t → s.classify s.devid.value = some v →
    (∀ i : Fin 9, exec (if v = .legacyFamily then .enccL else .enccM .a)
      { s with opf := s.coef[i] } = .next (u i)) →
    (v ≠ .legacyFamily → s.validIn.value.getLsbD 1 = true → ∀ j : Fin 3,
      exec (.enco 0) { s with opf := s.preoffIn[j] } = .next (o j)
        ∧ exec (.enco 0) { s with opf := s.postoffIn[j] } = .next (o' j)) →
      (∃ z, exec (if v = .legacyFamily then .packL else .packM .a)
          { s with codeIn := Vector.ofFn fun i => Reg.ofWrite ((u i).res.value.setWidth 16) }
            = .next z ∧ t.cscCoeff = z.cscCoeff)
        ∧ (v ≠ .legacyFamily → s.validIn.value.getLsbD 1 = true → ∀ j : Fin 3,
          t.cscPreoff[j] = (o j).res ∧ t.cscPostoff[j] = (o' j).res)
        ∧ t.opf = s.opf ∧ t.res = s.res ∧ t.codeIn = s.codeIn

/-- R10, R119: the two modern families behave identically: two states that differ in nothing but which of
them the device belongs to give the same outcome of `BUILD`. -/
def Obligations.ModernFamiliesIdentical : Prop :=
  ∀ (var : BitVec 2) (s t : State) (table : List (Word × Variant)),
    s.classify s.devid.value = some .modernFamilyA →
    State.classify { s with classTable := table } s.devid.value = some .modernFamilyB →
      (exec (.build var) s = .next t ↔
        exec (.build var) { s with classTable := table } = .next { t with classTable := table }
          ∧ t.classTable = s.classTable)
end

