-- ==== Sys2Proof/Laws/Mantissa.lean ====
section
/-! SUPPORT. What the mantissa loops compute: reversed, the bits emitted by `n` doublings of a magnitude below
1 are the integer part of `2^n` times it, and the remainder is the fractional part; the loop of `enc16` is
that loop after its absorbed zeros. -/

namespace Sys2Proof.Machine

/-! ### Bit reversal -/

@[simp] theorem bitrev_zero (v : Nat) : bitrev v 0 = 0 := rfl

theorem bitrev_succ (v n : Nat) : bitrev v (n + 1) = 2 * bitrev v n + (v.testBit n).toNat := rfl

/-- Only the bits below position `n` matter (R71). -/
theorem bitrev_congr {v w n : Nat} (h : ∀ j < n, v.testBit j = w.testBit j) :
    bitrev v n = bitrev w n := by
  induction n with
  | zero => rfl
  | succ n ih =>
    rw [bitrev_succ, bitrev_succ, ih fun j hj => h j (by omega), h n (by omega)]

/-- A new bit stored above the bits so far becomes the lowest bit of the reversal. -/
theorem bitrev_store {m i : Nat} (b : Bool) (hm : m < 2 ^ i) :
    bitrev (m ||| (b.toNat <<< i)) (i + 1) = 2 * bitrev m i + b.toNat := by
  have hlow : ∀ j < i, (m ||| (b.toNat <<< i)).testBit j = m.testBit j := by
    intro j hj
    simp [Nat.testBit_shiftLeft, Nat.not_le.mpr hj]
  have htop : (m ||| (b.toNat <<< i)).testBit i = b := by
    cases b <;> simp [Nat.testBit_shiftLeft, Nat.testBit_lt_two_pow hm]
  rw [bitrev_succ, bitrev_congr hlow, htop]

theorem store_lt {m i : Nat} (b : Bool) (hm : m < 2 ^ i) :
    m ||| (b.toNat <<< i) < 2 ^ (i + 1) := by
  apply Nat.or_lt_two_pow
  · rw [Nat.pow_succ]; omega
  · rw [Nat.shiftLeft_eq, Nat.pow_succ]
    have : b.toNat ≤ 1 := b.toNat_le
    nlinarith [Nat.two_pow_pos i]

/-! ### One doubling and many -/

/-- One doubling splits twice the magnitude into its integer bit and the rest. -/
theorem emitBit_spec {a : ℚ} (h0 : 0 ≤ a) (h1 : a < 1) :
    2 * a = ((emitBit a).1.toNat : ℚ) + (emitBit a).2 ∧
      0 ≤ (emitBit a).2 ∧ (emitBit a).2 < 1 := by
  unfold emitBit
  split
  next h => simp; constructor <;> linarith
  next h => simp; constructor <;> linarith

/-- After `n` doublings from index `i`: the bits stay below position `i + n`, the remainder stays below 1,
and the reversed bits, read as an integer, with the remainder make up `2^n` times the magnitude. -/
theorem emitBits_spec (n : Nat) : ∀ (i : Nat) (a : ℚ) (m : Nat), 0 ≤ a → a < 1 → m < 2 ^ i →
    (emitBits n i a m).2 < 2 ^ (i + n) ∧ 0 ≤ (emitBits n i a m).1 ∧ (emitBits n i a m).1 < 1 ∧
      (bitrev (emitBits n i a m).2 (i + n) : ℚ) + (emitBits n i a m).1 =
        2 ^ n * ((bitrev m i : ℚ) + a) := by
  induction n with
  | zero =>
    intro i a m h0 h1 hm
    refine ⟨hm, h0, h1, ?_⟩
    simp [emitBits]
  | succ n ih =>
    intro i a m h0 h1 hm
    obtain ⟨hd, hr0, hr1⟩ := emitBit_spec h0 h1
    obtain ⟨hlt, hz, ho, hv⟩ :=
      ih (i + 1) (emitBit a).2 (m ||| ((emitBit a).1.toNat <<< i)) hr0 hr1 (store_lt _ hm)
    have hi : i + 1 + n = i + (n + 1) := by omega
    rw [hi] at hlt hv
    refine ⟨hlt, hz, ho, ?_⟩
    change (bitrev (emitBits n (i + 1) (emitBit a).2 (m ||| ((emitBit a).1.toNat <<< i))).2
      (i + (n + 1)) : ℚ) + _ = _
    rw [emitBits, hv, bitrev_store _ hm, pow_succ]
    push_cast
    linear_combination 2 ^ n * (-hd)

/-- The whole loop of a magnitude below 1, as R78 and R92 read it: the window holds the integer part of
`2^n · a` and the remainder is the fractional part. -/
theorem emitBits_window {n : Nat} {a : ℚ} (h0 : 0 ≤ a) (h1 : a < 1) :
    (bitrev (emitBits n 0 a 0).2 n : ℤ) = ⌊2 ^ n * a⌋ ∧
      (emitBits n 0 a 0).1 = 2 ^ n * a - ⌊2 ^ n * a⌋ := by
  obtain ⟨-, hz, ho, hv⟩ := emitBits_spec n 0 a 0 h0 h1 (by norm_num)
  simp only [bitrev_zero, Nat.cast_zero, zero_add] at hv
  have hf : ⌊2 ^ n * a⌋ = (bitrev (emitBits n 0 a 0).2 n : ℤ) := by
    rw [← hv, Int.floor_eq_iff]
    constructor
    · push_cast; linarith
    · push_cast; linarith
  refine ⟨hf.symm, ?_⟩
  rw [hf]
  push_cast
  linarith

theorem emitBits_remainder_mem {n : Nat} {a : ℚ} (h0 : 0 ≤ a) (h1 : a < 1) :
    0 ≤ (emitBits n 0 a 0).1 ∧ (emitBits n 0 a 0).1 < 1 :=
  let h := emitBits_spec n 0 a 0 h0 h1 (by norm_num)
  ⟨h.2.1, h.2.2.1⟩

theorem bitrev_lt (v n : Nat) : bitrev v n < 2 ^ n := by
  induction n with
  | zero => simp
  | succ n ih =>
    have : (v.testBit n).toNat ≤ 1 := Bool.toNat_le _
    rw [bitrev_succ, Nat.pow_succ]
    omega

/-! ### The loop of `enc16` -/

/-- When no zero is absorbed any more, the loop of R79 stores one bit a turn and is the plain loop. -/
theorem emissionLoop_stored {ge1 : Bool} {window : Nat} (fuel : Nat) :
    ∀ s : Emission, (ge1 = true ∨ s.seen1 = true ∨ s.e = Params.mExpCap) → s.k ≤ window →
      window - s.k ≤ fuel →
      (emissionLoop ge1 window fuel s).e = s.e ∧
        (emissionLoop ge1 window fuel s).k = window ∧
        ((emissionLoop ge1 window fuel s).a, (emissionLoop ge1 window fuel s).m) =
          emitBits (window - s.k) s.k s.a s.m := by
  induction fuel with
  | zero =>
    intro s _ hk hf
    have : window - s.k = 0 := by omega
    rw [this]
    exact ⟨rfl, by simp [emissionLoop]; omega, rfl⟩
  | succ fuel ih =>
    intro s hs hk hf
    by_cases hlt : s.k < window
    · have hbody : emissionBody ge1 s =
          { s with
            a := (emitBit s.a).2
            seen1 := s.seen1 || (emitBit s.a).1
            m := s.m ||| ((emitBit s.a).1.toNat <<< s.k)
            k := s.k + 1 } := by
        unfold emissionBody
        rw [if_neg]
        rintro ⟨-, hg, hn, he⟩
        rcases hs with h | h | h
        · rw [hg] at h; cases h
        · rw [hn] at h; cases h
        · omega
      have hnext := ih (emissionBody ge1 s) (by rw [hbody]; rcases hs with h | h | h <;> simp [h])
        (by rw [hbody]; exact hlt) (by rw [hbody]; simp only; omega)
      have hw : window - s.k = (window - (s.k + 1)) + 1 := by omega
      rw [emissionLoop, if_pos hlt, hw, emitBits]
      rw [hbody] at hnext ⊢
      exact hnext
    · have hw : window - s.k = 0 := by omega
      rw [emissionLoop, if_neg hlt, hw]
      exact ⟨rfl, by omega, rfl⟩

/-- A leading zero below 1 is absorbed: exponent up by one, magnitude doubled, nothing stored. -/
theorem emissionLoop_absorb {window fuel : Nat} {a : ℚ} {e : Nat} (hw : 0 < window)
    (ha : a < 1 / 2) (he : e < Params.mExpCap) :
    emissionLoop false window (fuel + 1)
        { a := a, e := e, seen1 := false, m := 0, k := 0 } =
      emissionLoop false window fuel
        { a := 2 * a, e := e + 1, seen1 := false, m := 0, k := 0 } := by
  have hbit : emitBit a = (false, 2 * a) := by
    unfold emitBit; rw [if_neg]; linarith
  rw [emissionLoop, if_pos hw]
  congr 1
  unfold emissionBody
  simp [hbit, he]

/-- The first 1 bit below 1 ends the absorption. -/
theorem emissionLoop_first {window fuel : Nat} {a : ℚ} {e : Nat} (hw : 0 < window)
    (hf : window ≤ fuel) (ha : 1 / 2 ≤ a) :
    let r := emissionLoop false window fuel { a := a, e := e, seen1 := false, m := 0, k := 0 }
    r.e = e ∧ r.k = window ∧ (r.a, r.m) = emitBits window 0 a 0 := by
  obtain ⟨fuel, rfl⟩ : ∃ f, fuel = f + 1 := ⟨fuel - 1, by omega⟩
  obtain ⟨n, rfl⟩ : ∃ n, window = n + 1 := ⟨window - 1, by omega⟩
  have hbit : emitBit a = (true, 2 * a - 1) := by
    unfold emitBit; rw [if_pos]; linarith
  have hbody : emissionBody false { a := a, e := e, seen1 := false, m := 0, k := 0 } =
      { a := 2 * a - 1, e := e, seen1 := true, m := 1, k := 1 } := by
    unfold emissionBody
    simp [hbit]
  have h := emissionLoop_stored (ge1 := false) (window := n + 1) fuel
    { a := 2 * a - 1, e := e, seen1 := true, m := 1, k := 1 } (by simp) (by simp) (by simp; omega)
  simp only [emissionLoop, hw, if_true, hbody]
  rw [emitBits, hbit]
  simpa using h

/-- Below 1, with `e` the number of leading zeros absorbed (at most 3), the loop is the plain loop of the
magnitude scaled by `2^e`. -/
theorem emission_below_one {a : ℚ} {e : Nat} (he : e ≤ 3) (hlo : e < 3 → 1 / 2 ≤ a * 2 ^ e)
    (hhi : a * 2 ^ e < 1) (h1 : a < 1) :
    (emission a).e = e ∧ (emission a).k = 9 ∧
      ((emission a).a, (emission a).m) = emitBits 9 0 (a * 2 ^ e) 0 := by
  have hge : magnitudeGe1 a = false := by simp [magnitudeGe1, h1]
  have hem : emission a =
      emissionLoop false 9 12 { a := a, e := 0, seen1 := false, m := 0, k := 0 } := by
    simp [emission, hge, keptWindow, emissionFuel, Params.mMant, Params.mExpCap, Params.mWinLt1]
  rw [hem]
  interval_cases e
  · have h := hlo (by norm_num)
    rw [pow_zero, mul_one] at h ⊢
    exact emissionLoop_first (by norm_num) (by norm_num) h
  · have h := hlo (by norm_num)
    rw [emissionLoop_absorb (by norm_num) (by linarith) (by decide)]
    have := emissionLoop_first (window := 9) (fuel := 11) (a := 2 * a) (e := 1) (by norm_num)
      (by norm_num) (by linarith)
    rwa [pow_one, mul_comm a 2]
  · have h := hlo (by norm_num)
    rw [emissionLoop_absorb (by norm_num) (by linarith) (by decide),
      emissionLoop_absorb (by norm_num) (by linarith) (by decide)]
    have := emissionLoop_first (window := 9) (fuel := 10) (a := 2 * (2 * a)) (e := 2) (by norm_num)
      (by norm_num) (by linarith)
    rwa [show a * 2 ^ 2 = 2 * (2 * a) by ring]
  · rw [emissionLoop_absorb (by norm_num) (by linarith) (by decide),
      emissionLoop_absorb (by norm_num) (by linarith) (by decide),
      emissionLoop_absorb (by norm_num) (by linarith) (by decide)]
    have := emissionLoop_stored (ge1 := false) (window := 9) 9
      { a := 2 * (2 * (2 * a)), e := 3, seen1 := false, m := 0, k := 0 } (by simp [Params.mExpCap])
      (by norm_num) (by norm_num)
    rw [show a * 2 ^ 3 = 2 * (2 * (2 * a)) by ring]
    exact this

/-- At 1 or above nothing is absorbed: the loop is the plain loop of the fraction, eight bits long. -/
theorem emission_from_one {a : ℚ} (h1 : 1 ≤ a) :
    (emission a).e = 8 - ⌊a⌋.toNat ∧ (emission a).k = 8 ∧
      ((emission a).a, (emission a).m) = emitBits 8 0 (a - ⌊a⌋) 0 := by
  have hge : magnitudeGe1 a = true := by simp [magnitudeGe1, h1]
  have hem : emission a = emissionLoop true 8 12
      { a := a - ⌊a⌋, e := 8 - ⌊a⌋.toNat, seen1 := false, m := 0, k := 0 } := by
    simp [emission, hge, keptWindow, emissionFuel, Params.mMant, Params.mExpCap, Params.mWinGe1,
      Params.mExpBias]
  rw [hem]
  exact emissionLoop_stored 12 _ (by simp) (by simp) (by simp)

end Sys2Proof.Machine
end

