-- ==== Sys2Proof/Laws/Encoders.lean ====
section
/-! SUPPORT. What the magnitude encodings compute, as functions of the clipped magnitude: the floor for the
12-bit family, round half up for the offsets and, scaled by the exponent, for the 16-bit family. -/

namespace Sys2Proof.Machine

/-! ### Helpers -/

theorem negWord_eq_neg {n : Nat} (v : BitVec n) : negWord v = -v := by
  rw [BitVec.neg_eq_not_add]; rfl

theorem negWord_toNat {n : Nat} (v : BitVec n) : (negWord v).toNat = (2 ^ n - v.toNat) % 2 ^ n := by
  rw [negWord_eq_neg, BitVec.toNat_neg]

/-- Clipping a finite value is taking the smaller of magnitude and clip constant (R75). -/
theorem clippedMagnitude_finite (clip x : ℚ) : clippedMagnitude clip (.finite x) = min |x| clip := by
  simp only [clippedMagnitude]
  split
  · rw [min_eq_right (by linarith)]
  · rw [min_eq_left (by linarith)]

/-- A clipped magnitude lies between 0 and the clip constant. -/
theorem clippedMagnitude_mem {clip : ℚ} (h : 0 ≤ clip) (x : FloatVal) :
    0 ≤ clippedMagnitude clip x ∧ clippedMagnitude clip x ≤ clip := by
  cases x with
  | finite x =>
    rw [clippedMagnitude_finite]
    exact ⟨le_min (abs_nonneg _) h, min_le_right _ _⟩
  | infinite n => exact ⟨h, le_rfl⟩

/-- Rounding the integer part by the round flag of the fractional part is rounding half up. -/
theorem floor_add_roundFlag {r y : ℚ} (h : r = y - ⌊y⌋) :
    (⌊y⌋ + if roundFlag r then 1 else 0) = roundHalfUp y := by
  subst h
  simp [roundHalfUp, roundFlag]

theorem roundHalfUp_le_iff (y : ℚ) (n : ℤ) : roundHalfUp y ≤ n ↔ y < n + 1 / 2 := by
  unfold roundHalfUp
  have hlo := Int.floor_le y
  have hhi := Int.lt_floor_add_one y
  split
  next h =>
    constructor
    · intro hn
      have : (⌊y⌋ : ℚ) + 1 ≤ n := by exact_mod_cast hn
      linarith
    · intro hn
      have : (⌊y⌋ : ℚ) < n := by linarith
      have : ⌊y⌋ < n := by exact_mod_cast this
      omega
  next h =>
    constructor
    · intro hn
      have : (⌊y⌋ : ℚ) ≤ n := by exact_mod_cast (by omega : ⌊y⌋ ≤ n)
      linarith
    · intro hn
      have : (⌊y⌋ : ℚ) < n + 1 := by linarith
      have : ⌊y⌋ < n + 1 := by exact_mod_cast this
      omega

/-- Rounding half up is off by at most one half. -/
theorem roundHalfUp_near (y : ℚ) : (roundHalfUp y : ℚ) - 1 / 2 ≤ y ∧ y < roundHalfUp y + 1 / 2 := by
  refine ⟨?_, (roundHalfUp_le_iff y _).mp le_rfl⟩
  by_contra h
  push Not at h
  have := (roundHalfUp_le_iff y (roundHalfUp y - 1)).mpr (by push_cast; linarith)
  omega

theorem roundHalfUp_mono {y z : ℚ} (h : y ≤ z) : roundHalfUp y ≤ roundHalfUp z := by
  rw [roundHalfUp_le_iff]
  have := (roundHalfUp_near z).2
  linarith

/-! ### The 12-bit family -/

/-- Truncation (R76, R78). -/
theorem magnitude12_eq_floor {a : ℚ} (h0 : 0 ≤ a) (h2 : a < 2) :
    (magnitude12 a : ℤ) = ⌊a * 1024⌋ := by
  unfold magnitude12
  by_cases h : 1 ≤ a
  · have hw := (emitBits_window (n := 10) (a := a - 1) (by linarith) (by linarith)).1
    have hlt := bitrev_lt (emitBits 10 0 (a - 1) 0).2 10
    have hor : bitrev (emitBits 10 0 (a - 1) 0).2 10 ||| 1 <<< 10 =
        bitrev (emitBits 10 0 (a - 1) 0).2 10 + 1024 := by
      rw [Nat.or_comm, Nat.add_comm]
      simpa using (Nat.two_pow_add_eq_or_of_lt hlt 1).symm
    simp only [magnitudeGe1, h, decide_true, if_true, Params.lMant, hor]
    push_cast
    rw [hw, show a * 1024 = 2 ^ 10 * (a - 1) + (1024 : ℤ) by push_cast; ring,
      Int.floor_add_intCast]
  · have hw := (emitBits_window (n := 10) (a := a) h0 (by linarith)).1
    simp only [magnitudeGe1, h, decide_false, Params.lMant, Bool.false_eq_true, if_false]
    rw [hw]
    congr 1
    ring

/-! ### The offsets -/

/-- Rounding half up, and no overflow: the mask of line 12 never changes anything (R91, R92). -/
theorem magnitude13_eq_round {a : ℚ} (h0 : 0 ≤ a) (h2 : a ≤ 999 / 1000) :
    (magnitude13 a : ℤ) = roundHalfUp (8192 * a) ∧ magnitude13 a ≤ 8184 := by
  obtain ⟨hw, hr⟩ := emitBits_window (n := 13) (a := a) h0 (by linarith)
  have hround := floor_add_roundFlag hr
  rw [← hw, show (2 : ℚ) ^ 13 * a = 8192 * a by norm_num] at hround
  have hle : roundHalfUp (8192 * a) ≤ 8184 := by
    rw [roundHalfUp_le_iff]; push_cast; linarith
  have hmask : ∀ m : ℕ, (m : ℤ) = roundHalfUp (8192 * a) → m &&& 0x1FFF = m := by
    intro m hm
    exact (Nat.and_two_pow_sub_one_eq_mod m 13).trans (Nat.mod_eq_of_lt (by omega))
  have heq : magnitude13 a = bitrev (emitBits 13 0 a 0).2 13 +
      if roundFlag (emitBits 13 0 a 0).1 then 1 else 0 := by
    unfold magnitude13
    simp only [Params.oBits]
    by_cases hf : roundFlag (emitBits 13 0 a 0).1 = true
    · rw [if_pos hf] at hround ⊢
      rw [if_pos hf]
      exact hmask _ (by push_cast; exact hround)
    · rw [if_neg hf, add_zero] at hround
      rw [if_neg hf, if_neg hf, add_zero]
      exact hmask _ hround
  have hz : (magnitude13 a : ℤ) = roundHalfUp (8192 * a) := by
    rw [heq, ← hround]; split <;> simp
  exact ⟨hz, by omega⟩

/-! ### The 16-bit family -/

/-- The two fields of `magnitude16` lie side by side. -/
theorem magnitude16_fields (a : ℚ) :
    magnitude16 a = (emission a).e * 2 ^ 12 + mantissa16 (magnitudeGe1 a) (emission a) * 2 ^ 3 ∧
      mantissa16 (magnitudeGe1 a) (emission a) < 2 ^ 9 := by
  have hm : mantissa16 (magnitudeGe1 a) (emission a) < 2 ^ 9 := by
    unfold mantissa16
    exact Nat.and_lt_two_pow _ (by norm_num)
  refine ⟨?_, hm⟩
  have hs : mantissa16 (magnitudeGe1 a) (emission a) <<< 3 < 2 ^ 12 := by
    rw [Nat.shiftLeft_eq]; omega
  unfold magnitude16
  simp only [Params.mExpOffset, Params.mMantShift]
  rw [Nat.shiftLeft_eq (emission a).e 12, Nat.mul_comm (emission a).e,
    ← Nat.two_pow_add_eq_or_of_lt hs, Nat.shiftLeft_eq]

/-- Below 1: `e` absorbed zeros and the 9-bit mantissa, its carry dropped (R79, R82). -/
theorem magnitude16_below_one {a : ℚ} {e : Nat} (he : e ≤ 3) (hlo : e < 3 → 1 / 2 ≤ a * 2 ^ e)
    (h0 : 0 ≤ a) (hhi : a * 2 ^ e < 1) (h1 : a < 1) :
    (emission a).e = e ∧
      (mantissa16 (magnitudeGe1 a) (emission a) : ℤ) = roundHalfUp (512 * a * 2 ^ e) % 512 := by
  obtain ⟨hE, -, hem⟩ := emission_below_one he hlo hhi h1
  refine ⟨hE, ?_⟩
  have hA := congrArg Prod.fst hem
  have hM := congrArg Prod.snd hem
  obtain ⟨hw, hr⟩ := emitBits_window (n := 9) (a := a * 2 ^ e) (by positivity) hhi
  rw [← hM] at hw
  rw [← hA] at hr
  have hround := floor_add_roundFlag hr
  rw [show (2 : ℚ) ^ 9 * (a * 2 ^ e) = 512 * a * 2 ^ e by ring] at hround hw
  rw [← hround, ← hw]
  have hge : magnitudeGe1 a = false := by simp [magnitudeGe1, h1]
  simp only [mantissa16, hge, keptWindow, Params.mWinLt1, Bool.false_eq_true, if_false]
  rw [show (0x1FF : ℕ) = 2 ^ 9 - 1 by norm_num, Nat.and_two_pow_sub_one_eq_mod]
  split <;> push_cast <;> norm_num

/-- From 1 up: exponent seed 8 minus the integer part, the leading bit, and the 8-bit fraction; a carry
out of the fraction is lost in the leading bit (R79, R82). -/
theorem magnitude16_from_one {a : ℚ} (h1 : 1 ≤ a) :
    (emission a).e = 8 - ⌊a⌋.toNat ∧
      (mantissa16 (magnitudeGe1 a) (emission a) : ℤ) =
        0x100 + roundHalfUp (256 * (a - ⌊a⌋)) % 256 := by
  obtain ⟨hE, -, hem⟩ := emission_from_one h1
  refine ⟨hE, ?_⟩
  have hA := congrArg Prod.fst hem
  have hM := congrArg Prod.snd hem
  have hf0 : 0 ≤ a - ⌊a⌋ := by linarith [Int.floor_le a]
  have hf1 : a - ⌊a⌋ < 1 := by linarith [Int.lt_floor_add_one a]
  obtain ⟨hw, hr⟩ := emitBits_window (n := 8) (a := a - ⌊a⌋) hf0 hf1
  rw [← hM] at hw
  rw [← hA] at hr
  have hround := floor_add_roundFlag hr
  rw [show (2 : ℚ) ^ 8 * (a - ⌊a⌋) = 256 * (a - ⌊a⌋) by norm_num] at hround hw
  rw [← hround, ← hw]
  have hge : magnitudeGe1 a = true := by simp [magnitudeGe1, h1]
  have hlt := bitrev_lt (emission a).m 8
  have hset : ∀ m ≤ 256, (m ||| 0x100) &&& 0x1FF = 0x100 + m % 256 := by decide +kernel
  simp only [mantissa16, hge, keptWindow, Params.mWinGe1, if_true]
  split
  · rw [hset _ (by omega)]; push_cast; rfl
  · rw [hset _ (by omega)]; push_cast; norm_num

/-! ### The fields of a `code16` -/

/-- A word put together from sign, exponent and mantissa has these fields (R54). -/
theorem code16_fields {e m : Nat} (he : e < 8) (hm : m < 512) (neg : Bool) {w : Code16}
    (hw : w.toNat = neg.toNat * 2 ^ 15 + (e * 2 ^ 12 + m * 2 ^ 3)) :
    signField w = neg ∧ exponentField w = e ∧ mantissaField w = m ∧ w.extractLsb' 0 3 = 0 := by
  have hneg : neg.toNat ≤ 1 := neg.toNat_le
  refine ⟨?_, ?_, ?_, ?_⟩
  · rw [signField, BitVec.getLsbD, Nat.testBit_eq_decide_div_mod_eq, hw]
    have : (neg.toNat * 2 ^ 15 + (e * 2 ^ 12 + m * 2 ^ 3)) / 2 ^ 15 = neg.toNat := by omega
    rw [this]
    cases neg <;> rfl
  · rw [exponentField, BitVec.extractLsb'_toNat, Nat.shiftRight_eq_div_pow, hw]
    omega
  · rw [mantissaField, BitVec.extractLsb'_toNat, Nat.shiftRight_eq_div_pow, hw]
    omega
  · apply BitVec.eq_of_toNat_eq
    rw [BitVec.extractLsb'_toNat, Nat.shiftRight_eq_div_pow, hw]
    simp
    omega

/-- The exponent of a clipped magnitude fits its field (R54). -/
theorem emission_e_lt (a : ℚ) : (emission a).e < 8 := by
  by_cases h1 : 1 ≤ a
  · have := (emission_from_one h1).1
    have hf : 1 ≤ ⌊a⌋ := by rw [Int.le_floor]; exact_mod_cast h1
    omega
  · push Not at h1
    obtain ⟨e, he, hlo, hhi⟩ : ∃ e : Nat, e ≤ 3 ∧ (e < 3 → 1 / 2 ≤ a * 2 ^ e) ∧ a * 2 ^ e < 1 := by
      by_cases h2 : 1 / 2 ≤ a
      · exact ⟨0, by norm_num, fun _ => by linarith, by linarith⟩
      by_cases h4 : 1 / 4 ≤ a
      · exact ⟨1, by norm_num, fun _ => by linarith, by linarith⟩
      by_cases h8 : 1 / 8 ≤ a
      · exact ⟨2, by norm_num, fun _ => by linarith, by linarith⟩
      exact ⟨3, le_rfl, fun h => absurd h (by norm_num), by linarith⟩
    have := (emission_below_one he hlo hhi h1).1
    omega

/-- The fields of `enc16` of anything but zero, from the loop's exponent and the mantissa (R79). -/
theorem enc16_fields {x : FloatVal} (hz : isZero x = false) :
    let a := clippedMagnitude Params.mClip x
    signField (enc16 x) = isNegative x ∧ exponentField (enc16 x) = (emission a).e ∧
      mantissaField (enc16 x) = mantissa16 (magnitudeGe1 a) (emission a) ∧
      (enc16 x).extractLsb' 0 3 = 0 := by
  intro a
  have he := emission_e_lt a
  obtain ⟨hf, hm⟩ := magnitude16_fields a
  apply code16_fields he (by simpa using hm)
  have hlt : magnitude16 a < 2 ^ 15 := by omega
  change magnitude16 (clippedMagnitude Params.mClip x) < 2 ^ 15 at hlt
  simp only [enc16, hz, Bool.false_eq_true, if_false]
  cases hn : isNegative x with
  | false =>
    rw [if_neg Bool.false_ne_true, BitVec.toNat_ofNat, Nat.mod_eq_of_lt (by omega), ← hf]
    simp [a]
  | true =>
    rw [if_pos rfl, BitVec.toNat_or, BitVec.toNat_ofNat, Nat.mod_eq_of_lt (by omega), ← hf,
      Nat.or_comm]
    have := Nat.two_pow_add_eq_or_of_lt hlt 1
    simpa [a, Params.mSignBit] using this.symm

end Sys2Proof.Machine
end

