-- ==== Sys2Proof/Laws/State.lean ====
section
/-! SUPPORT. One lemma per field per update of the state, each true by `rfl`, so that no proof unfolds a
record update; and the unwritten registers of the reset state. -/

namespace Sys2Proof.Machine

variable (s : State)

/-! ### `setRes` -/

@[simp] theorem State.setRes_coef (v : Word) :
    (s.setRes v).coef = s.coef := rfl
@[simp] theorem State.setRes_preoffIn (v : Word) :
    (s.setRes v).preoffIn = s.preoffIn := rfl
@[simp] theorem State.setRes_postoffIn (v : Word) :
    (s.setRes v).postoffIn = s.postoffIn := rfl
@[simp] theorem State.setRes_validIn (v : Word) :
    (s.setRes v).validIn = s.validIn := rfl
@[simp] theorem State.setRes_modeIn (v : Word) :
    (s.setRes v).modeIn = s.modeIn := rfl
@[simp] theorem State.setRes_devid (v : Word) :
    (s.setRes v).devid = s.devid := rfl
@[simp] theorem State.setRes_opf (v : Word) :
    (s.setRes v).opf = s.opf := rfl
@[simp] theorem State.setRes_opv (v : Word) :
    (s.setRes v).opv = s.opv := rfl
@[simp] theorem State.setRes_opn (v : Word) :
    (s.setRes v).opn = s.opn := rfl
@[simp] theorem State.setRes_codeIn (v : Word) :
    (s.setRes v).codeIn = s.codeIn := rfl
@[simp] theorem State.setRes_cmd (v : Word) :
    (s.setRes v).cmd = s.cmd := rfl
@[simp] theorem State.setRes_res (v : Word) :
    (s.setRes v).res = Reg.ofWrite v := rfl
@[simp] theorem State.setRes_cscCoeff (v : Word) :
    (s.setRes v).cscCoeff = s.cscCoeff := rfl
@[simp] theorem State.setRes_cscPreoff (v : Word) :
    (s.setRes v).cscPreoff = s.cscPreoff := rfl
@[simp] theorem State.setRes_cscPostoff (v : Word) :
    (s.setRes v).cscPostoff = s.cscPostoff := rfl
@[simp] theorem State.setRes_cscMode (v : Word) :
    (s.setRes v).cscMode = s.cscMode := rfl
@[simp] theorem State.setRes_validOut (v : Word) :
    (s.setRes v).validOut = s.validOut := rfl
@[simp] theorem State.setRes_classTable (v : Word) :
    (s.setRes v).classTable = s.classTable := rfl
@[simp] theorem State.setRes_pending (v : Word) :
    (s.setRes v).pending = s.pending := rfl
@[simp] theorem State.setRes_answers (v : Word) :
    (s.setRes v).answers = s.answers := rfl
@[simp] theorem State.setRes_freeCount (v : Word) :
    (s.setRes v).freeCount = s.freeCount := rfl

/-! ### `setCoeffWords` -/

@[simp] theorem State.setCoeffWords_coef (r : Vector Word 6) :
    (s.setCoeffWords r).coef = s.coef := rfl
@[simp] theorem State.setCoeffWords_preoffIn (r : Vector Word 6) :
    (s.setCoeffWords r).preoffIn = s.preoffIn := rfl
@[simp] theorem State.setCoeffWords_postoffIn (r : Vector Word 6) :
    (s.setCoeffWords r).postoffIn = s.postoffIn := rfl
@[simp] theorem State.setCoeffWords_validIn (r : Vector Word 6) :
    (s.setCoeffWords r).validIn = s.validIn := rfl
@[simp] theorem State.setCoeffWords_modeIn (r : Vector Word 6) :
    (s.setCoeffWords r).modeIn = s.modeIn := rfl
@[simp] theorem State.setCoeffWords_devid (r : Vector Word 6) :
    (s.setCoeffWords r).devid = s.devid := rfl
@[simp] theorem State.setCoeffWords_opf (r : Vector Word 6) :
    (s.setCoeffWords r).opf = s.opf := rfl
@[simp] theorem State.setCoeffWords_opv (r : Vector Word 6) :
    (s.setCoeffWords r).opv = s.opv := rfl
@[simp] theorem State.setCoeffWords_opn (r : Vector Word 6) :
    (s.setCoeffWords r).opn = s.opn := rfl
@[simp] theorem State.setCoeffWords_codeIn (r : Vector Word 6) :
    (s.setCoeffWords r).codeIn = s.codeIn := rfl
@[simp] theorem State.setCoeffWords_cmd (r : Vector Word 6) :
    (s.setCoeffWords r).cmd = s.cmd := rfl
@[simp] theorem State.setCoeffWords_res (r : Vector Word 6) :
    (s.setCoeffWords r).res = s.res := rfl
@[simp] theorem State.setCoeffWords_cscCoeff (r : Vector Word 6) :
    (s.setCoeffWords r).cscCoeff = Vector.ofFn fun j => Reg.ofWrite r[j] := rfl
@[simp] theorem State.setCoeffWords_cscPreoff (r : Vector Word 6) :
    (s.setCoeffWords r).cscPreoff = s.cscPreoff := rfl
@[simp] theorem State.setCoeffWords_cscPostoff (r : Vector Word 6) :
    (s.setCoeffWords r).cscPostoff = s.cscPostoff := rfl
@[simp] theorem State.setCoeffWords_cscMode (r : Vector Word 6) :
    (s.setCoeffWords r).cscMode = s.cscMode := rfl
@[simp] theorem State.setCoeffWords_validOut (r : Vector Word 6) :
    (s.setCoeffWords r).validOut = s.validOut := rfl
@[simp] theorem State.setCoeffWords_classTable (r : Vector Word 6) :
    (s.setCoeffWords r).classTable = s.classTable := rfl
@[simp] theorem State.setCoeffWords_pending (r : Vector Word 6) :
    (s.setCoeffWords r).pending = s.pending := rfl
@[simp] theorem State.setCoeffWords_answers (r : Vector Word 6) :
    (s.setCoeffWords r).answers = s.answers := rfl
@[simp] theorem State.setCoeffWords_freeCount (r : Vector Word 6) :
    (s.setCoeffWords r).freeCount = s.freeCount := rfl

/-! ### `setOffsetWords` -/

@[simp] theorem State.setOffsetWords_coef (p q : Vector Word 3) :
    (s.setOffsetWords p q).coef = s.coef := rfl
@[simp] theorem State.setOffsetWords_preoffIn (p q : Vector Word 3) :
    (s.setOffsetWords p q).preoffIn = s.preoffIn := rfl
@[simp] theorem State.setOffsetWords_postoffIn (p q : Vector Word 3) :
    (s.setOffsetWords p q).postoffIn = s.postoffIn := rfl
@[simp] theorem State.setOffsetWords_validIn (p q : Vector Word 3) :
    (s.setOffsetWords p q).validIn = s.validIn := rfl
@[simp] theorem State.setOffsetWords_modeIn (p q : Vector Word 3) :
    (s.setOffsetWords p q).modeIn = s.modeIn := rfl
@[simp] theorem State.setOffsetWords_devid (p q : Vector Word 3) :
    (s.setOffsetWords p q).devid = s.devid := rfl
@[simp] theorem State.setOffsetWords_opf (p q : Vector Word 3) :
    (s.setOffsetWords p q).opf = s.opf := rfl
@[simp] theorem State.setOffsetWords_opv (p q : Vector Word 3) :
    (s.setOffsetWords p q).opv = s.opv := rfl
@[simp] theorem State.setOffsetWords_opn (p q : Vector Word 3) :
    (s.setOffsetWords p q).opn = s.opn := rfl
@[simp] theorem State.setOffsetWords_codeIn (p q : Vector Word 3) :
    (s.setOffsetWords p q).codeIn = s.codeIn := rfl
@[simp] theorem State.setOffsetWords_cmd (p q : Vector Word 3) :
    (s.setOffsetWords p q).cmd = s.cmd := rfl
@[simp] theorem State.setOffsetWords_res (p q : Vector Word 3) :
    (s.setOffsetWords p q).res = s.res := rfl
@[simp] theorem State.setOffsetWords_cscCoeff (p q : Vector Word 3) :
    (s.setOffsetWords p q).cscCoeff = s.cscCoeff := rfl
@[simp] theorem State.setOffsetWords_cscPreoff (p q : Vector Word 3) :
    (s.setOffsetWords p q).cscPreoff = Vector.ofFn fun j => Reg.ofWrite p[j] := rfl
@[simp] theorem State.setOffsetWords_cscPostoff (p q : Vector Word 3) :
    (s.setOffsetWords p q).cscPostoff = Vector.ofFn fun j => Reg.ofWrite q[j] := rfl
@[simp] theorem State.setOffsetWords_cscMode (p q : Vector Word 3) :
    (s.setOffsetWords p q).cscMode = s.cscMode := rfl
@[simp] theorem State.setOffsetWords_validOut (p q : Vector Word 3) :
    (s.setOffsetWords p q).validOut = s.validOut := rfl
@[simp] theorem State.setOffsetWords_classTable (p q : Vector Word 3) :
    (s.setOffsetWords p q).classTable = s.classTable := rfl
@[simp] theorem State.setOffsetWords_pending (p q : Vector Word 3) :
    (s.setOffsetWords p q).pending = s.pending := rfl
@[simp] theorem State.setOffsetWords_answers (p q : Vector Word 3) :
    (s.setOffsetWords p q).answers = s.answers := rfl
@[simp] theorem State.setOffsetWords_freeCount (p q : Vector Word 3) :
    (s.setOffsetWords p q).freeCount = s.freeCount := rfl

/-! ### `setModeWord` -/

@[simp] theorem State.setModeWord_coef (v : Word) :
    (s.setModeWord v).coef = s.coef := rfl
@[simp] theorem State.setModeWord_preoffIn (v : Word) :
    (s.setModeWord v).preoffIn = s.preoffIn := rfl
@[simp] theorem State.setModeWord_postoffIn (v : Word) :
    (s.setModeWord v).postoffIn = s.postoffIn := rfl
@[simp] theorem State.setModeWord_validIn (v : Word) :
    (s.setModeWord v).validIn = s.validIn := rfl
@[simp] theorem State.setModeWord_modeIn (v : Word) :
    (s.setModeWord v).modeIn = s.modeIn := rfl
@[simp] theorem State.setModeWord_devid (v : Word) :
    (s.setModeWord v).devid = s.devid := rfl
@[simp] theorem State.setModeWord_opf (v : Word) :
    (s.setModeWord v).opf = s.opf := rfl
@[simp] theorem State.setModeWord_opv (v : Word) :
    (s.setModeWord v).opv = s.opv := rfl
@[simp] theorem State.setModeWord_opn (v : Word) :
    (s.setModeWord v).opn = s.opn := rfl
@[simp] theorem State.setModeWord_codeIn (v : Word) :
    (s.setModeWord v).codeIn = s.codeIn := rfl
@[simp] theorem State.setModeWord_cmd (v : Word) :
    (s.setModeWord v).cmd = s.cmd := rfl
@[simp] theorem State.setModeWord_res (v : Word) :
    (s.setModeWord v).res = s.res := rfl
@[simp] theorem State.setModeWord_cscCoeff (v : Word) :
    (s.setModeWord v).cscCoeff = s.cscCoeff := rfl
@[simp] theorem State.setModeWord_cscPreoff (v : Word) :
    (s.setModeWord v).cscPreoff = s.cscPreoff := rfl
@[simp] theorem State.setModeWord_cscPostoff (v : Word) :
    (s.setModeWord v).cscPostoff = s.cscPostoff := rfl
@[simp] theorem State.setModeWord_cscMode (v : Word) :
    (s.setModeWord v).cscMode = Reg.ofWrite v := rfl
@[simp] theorem State.setModeWord_validOut (v : Word) :
    (s.setModeWord v).validOut = s.validOut := rfl
@[simp] theorem State.setModeWord_classTable (v : Word) :
    (s.setModeWord v).classTable = s.classTable := rfl
@[simp] theorem State.setModeWord_pending (v : Word) :
    (s.setModeWord v).pending = s.pending := rfl
@[simp] theorem State.setModeWord_answers (v : Word) :
    (s.setModeWord v).answers = s.answers := rfl
@[simp] theorem State.setModeWord_freeCount (v : Word) :
    (s.setModeWord v).freeCount = s.freeCount := rfl

/-! ### `setValidOut` -/

@[simp] theorem State.setValidOut_coef (v : Word) :
    (s.setValidOut v).coef = s.coef := rfl
@[simp] theorem State.setValidOut_preoffIn (v : Word) :
    (s.setValidOut v).preoffIn = s.preoffIn := rfl
@[simp] theorem State.setValidOut_postoffIn (v : Word) :
    (s.setValidOut v).postoffIn = s.postoffIn := rfl
@[simp] theorem State.setValidOut_validIn (v : Word) :
    (s.setValidOut v).validIn = s.validIn := rfl
@[simp] theorem State.setValidOut_modeIn (v : Word) :
    (s.setValidOut v).modeIn = s.modeIn := rfl
@[simp] theorem State.setValidOut_devid (v : Word) :
    (s.setValidOut v).devid = s.devid := rfl
@[simp] theorem State.setValidOut_opf (v : Word) :
    (s.setValidOut v).opf = s.opf := rfl
@[simp] theorem State.setValidOut_opv (v : Word) :
    (s.setValidOut v).opv = s.opv := rfl
@[simp] theorem State.setValidOut_opn (v : Word) :
    (s.setValidOut v).opn = s.opn := rfl
@[simp] theorem State.setValidOut_codeIn (v : Word) :
    (s.setValidOut v).codeIn = s.codeIn := rfl
@[simp] theorem State.setValidOut_cmd (v : Word) :
    (s.setValidOut v).cmd = s.cmd := rfl
@[simp] theorem State.setValidOut_res (v : Word) :
    (s.setValidOut v).res = s.res := rfl
@[simp] theorem State.setValidOut_cscCoeff (v : Word) :
    (s.setValidOut v).cscCoeff = s.cscCoeff := rfl
@[simp] theorem State.setValidOut_cscPreoff (v : Word) :
    (s.setValidOut v).cscPreoff = s.cscPreoff := rfl
@[simp] theorem State.setValidOut_cscPostoff (v : Word) :
    (s.setValidOut v).cscPostoff = s.cscPostoff := rfl
@[simp] theorem State.setValidOut_cscMode (v : Word) :
    (s.setValidOut v).cscMode = s.cscMode := rfl
@[simp] theorem State.setValidOut_validOut (v : Word) :
    (s.setValidOut v).validOut = Reg.ofWrite v := rfl
@[simp] theorem State.setValidOut_classTable (v : Word) :
    (s.setValidOut v).classTable = s.classTable := rfl
@[simp] theorem State.setValidOut_pending (v : Word) :
    (s.setValidOut v).pending = s.pending := rfl
@[simp] theorem State.setValidOut_answers (v : Word) :
    (s.setValidOut v).answers = s.answers := rfl
@[simp] theorem State.setValidOut_freeCount (v : Word) :
    (s.setValidOut v).freeCount = s.freeCount := rfl

/-! ### `latchCommand` -/

@[simp] theorem State.latchCommand_coef (w : CommandWord) :
    (s.latchCommand w).coef = s.coef := rfl
@[simp] theorem State.latchCommand_preoffIn (w : CommandWord) :
    (s.latchCommand w).preoffIn = s.preoffIn := rfl
@[simp] theorem State.latchCommand_postoffIn (w : CommandWord) :
    (s.latchCommand w).postoffIn = s.postoffIn := rfl
@[simp] theorem State.latchCommand_validIn (w : CommandWord) :
    (s.latchCommand w).validIn = s.validIn := rfl
@[simp] theorem State.latchCommand_modeIn (w : CommandWord) :
    (s.latchCommand w).modeIn = s.modeIn := rfl
@[simp] theorem State.latchCommand_devid (w : CommandWord) :
    (s.latchCommand w).devid = s.devid := rfl
@[simp] theorem State.latchCommand_opf (w : CommandWord) :
    (s.latchCommand w).opf = s.opf := rfl
@[simp] theorem State.latchCommand_opv (w : CommandWord) :
    (s.latchCommand w).opv = s.opv := rfl
@[simp] theorem State.latchCommand_opn (w : CommandWord) :
    (s.latchCommand w).opn = s.opn := rfl
@[simp] theorem State.latchCommand_codeIn (w : CommandWord) :
    (s.latchCommand w).codeIn = s.codeIn := rfl
@[simp] theorem State.latchCommand_cmd (w : CommandWord) :
    (s.latchCommand w).cmd = Reg.ofWrite w := rfl
@[simp] theorem State.latchCommand_res (w : CommandWord) :
    (s.latchCommand w).res = s.res := rfl
@[simp] theorem State.latchCommand_cscCoeff (w : CommandWord) :
    (s.latchCommand w).cscCoeff = s.cscCoeff := rfl
@[simp] theorem State.latchCommand_cscPreoff (w : CommandWord) :
    (s.latchCommand w).cscPreoff = s.cscPreoff := rfl
@[simp] theorem State.latchCommand_cscPostoff (w : CommandWord) :
    (s.latchCommand w).cscPostoff = s.cscPostoff := rfl
@[simp] theorem State.latchCommand_cscMode (w : CommandWord) :
    (s.latchCommand w).cscMode = s.cscMode := rfl
@[simp] theorem State.latchCommand_validOut (w : CommandWord) :
    (s.latchCommand w).validOut = s.validOut := rfl
@[simp] theorem State.latchCommand_classTable (w : CommandWord) :
    (s.latchCommand w).classTable = s.classTable := rfl
@[simp] theorem State.latchCommand_pending (w : CommandWord) :
    (s.latchCommand w).pending = s.pending := rfl
@[simp] theorem State.latchCommand_answers (w : CommandWord) :
    (s.latchCommand w).answers = s.answers := rfl
@[simp] theorem State.latchCommand_freeCount (w : CommandWord) :
    (s.latchCommand w).freeCount = s.freeCount := rfl

/-! ### Values and marks of a register -/

@[simp] theorem ofWrite_value {w : Nat} (v : BitVec w) : (Reg.ofWrite v).value = v := rfl
@[simp] theorem ofWrite_written {w : Nat} (v : BitVec w) : (Reg.ofWrite v).written = true := rfl
@[simp] theorem unwritten_value (w : Nat) : (Reg.unwritten w).value = 0 := rfl
@[simp] theorem unwritten_written (w : Nat) : (Reg.unwritten w).written = false := rfl
@[simp] theorem widen_written {w : Nat} (r : Reg w) : (widen r).written = r.written := rfl
@[simp] theorem widen_value {w : Nat} (r : Reg w) : (widen r).value = r.value.setWidth 32 := rfl
@[simp] theorem markWritten_value {w : Nat} (r : Reg w) : (markWritten r).value = r.value := rfl
@[simp] theorem markWritten_written {w : Nat} (r : Reg w) : (markWritten r).written = true := rfl

end Sys2Proof.Machine
end

