-- ==== Sys2Proof/Laws/Registers.lean ====
section
/-! SUPPORT. What each write of the state does to the view of any register, and what a read, a reset and the
initialisation of the inputs do: one lemma per shared operation, for callers to cite. -/

namespace Sys2Proof.Machine

variable (s : State)

/-! ### Output writes leave the inputs alone -/

@[simp] theorem State.setRes_input (v : Word) (r : InReg) : (s.setRes v).input r = s.input r := by
  cases r <;> rfl

@[simp] theorem State.setCoeffWords_input (v : Vector Word 6) (r : InReg) :
    (s.setCoeffWords v).input r = s.input r := by
  cases r <;> rfl

@[simp] theorem State.setOffsetWords_input (p q : Vector Word 3) (r : InReg) :
    (s.setOffsetWords p q).input r = s.input r := by
  cases r <;> rfl

@[simp] theorem State.setModeWord_input (v : Word) (r : InReg) :
    (s.setModeWord v).input r = s.input r := by
  cases r <;> rfl

@[simp] theorem State.setValidOut_input (v : Word) (r : InReg) :
    (s.setValidOut v).input r = s.input r := by
  cases r <;> rfl

@[simp] theorem State.latchCommand_input (w : CommandWord) (r : InReg) :
    (s.latchCommand w).input r = s.input r := by
  cases r <;> rfl

/-! ### What each write does to the outputs -/

theorem State.setRes_output (v : Word) (r : OutReg) :
    (s.setRes v).output r = if r = .res then Reg.ofWrite v else s.output r := by
  cases r <;> rfl

theorem State.setCoeffWords_output (v : Vector Word 6) (r : OutReg) :
    (s.setCoeffWords v).output r =
      match r with
      | .cscCoeff j => Reg.ofWrite v[j]
      | r => s.output r := by
  cases r <;> simp [State.output]

theorem State.setOffsetWords_output (p q : Vector Word 3) (r : OutReg) :
    (s.setOffsetWords p q).output r =
      match r with
      | .cscPreoff j => Reg.ofWrite p[j]
      | .cscPostoff j => Reg.ofWrite q[j]
      | r => s.output r := by
  cases r <;> simp [State.output]

theorem State.setModeWord_output (v : Word) (r : OutReg) :
    (s.setModeWord v).output r = if r = .cscMode then Reg.ofWrite v else s.output r := by
  cases r <;> rfl

theorem State.setValidOut_output (v : Word) (r : OutReg) :
    (s.setValidOut v).output r = if r = .validOut then Reg.ofWrite v else s.output r := by
  cases r <;> rfl

@[simp] theorem State.latchCommand_output (w : CommandWord) (r : OutReg) :
    (s.latchCommand w).output r = s.output r := by
  cases r <;> rfl

/-! ### The host's accesses -/

@[simp] theorem State.writeInput_output (r : InReg) (v : Nat) (r' : OutReg) :
    (s.writeInput r v).output r' = s.output r' := by
  cases r <;> cases r' <;> rfl

/-- A write of one input register leaves every other one alone. -/
theorem State.writeInput_input_ne {r r' : InReg} (v : Nat) (h : r' ≠ r) :
    (s.writeInput r v).input r' = s.input r' := by
  cases r <;> cases r' <;> first | rfl | skip
  all_goals first
    | exact absurd rfl h
    | (rename_i a b
       have hne : (a : Nat) ≠ (b : Nat) := fun e => h (by rw [Fin.ext e])
       simp only [State.writeInput, State.input, Fin.getElem_fin,
         Vector.getElem_set_ne _ _ hne])

/-- A read changes the answers and the count of free values, no register (R43). -/
theorem State.answerRead_reg (r r' : RegName) : (s.answerRead r).reg r' = s.reg r' := by
  unfold State.answerRead
  split <;> cases r' with
  | cmd => rfl
  | inp r => cases r <;> rfl
  | out r => cases r <;> rfl

@[simp] theorem State.answerRead_classTable (r : RegName) :
    (s.answerRead r).classTable = s.classTable := by
  unfold State.answerRead; split <;> rfl

@[simp] theorem State.answerRead_pending (r : RegName) :
    (s.answerRead r).pending = s.pending := by
  unfold State.answerRead; split <;> rfl

@[simp] theorem State.writeInput_classTable (r : InReg) (v : Nat) :
    (s.writeInput r v).classTable = s.classTable := by
  cases r <;> rfl

@[simp] theorem State.writeInput_pending (r : InReg) (v : Nat) :
    (s.writeInput r v).pending = s.pending := by
  cases r <;> rfl

/-- In the state a reset leaves, every register is unwritten with the value 0 (log 1). -/
theorem State.resetWith_reg (table : List (Word × Variant)) (r : RegName) :
    (State.resetWith table).reg r = Reg.unwritten 32 := by
  cases r with
  | cmd => rfl
  | inp r => cases r <;> simp [State.reg, State.input, State.resetWith, widen, Reg.unwritten]
  | out r => cases r <;> simp [State.reg, State.output, State.resetWith]

theorem State.resetBlock_reg (r : RegName) : s.resetBlock.reg r = Reg.unwritten 32 := by
  rw [← State.resetWith_reg s.classTable r]
  cases r with
  | cmd => rfl
  | inp r => cases r <;> rfl
  | out r => cases r <;> rfl

/-- The initialisation of the inputs marks them and changes no value. -/
theorem State.withInputsWritten_input (r : InReg) :
    s.withInputsWritten.input r = { value := (s.input r).value, written := true } := by
  cases r <;> simp [State.input, State.withInputsWritten, markWritten, widen]

@[simp] theorem State.withInputsWritten_output (r : OutReg) :
    s.withInputsWritten.output r = s.output r := by
  cases r <;> rfl

/-! ### Groups -/

theorem allWritten_iff {w n : Nat} (v : Vector (Reg w) n) :
    allWritten v = true ↔ ∀ i : Fin n, v[i].written = true := by
  simp [allWritten]

end Sys2Proof.Machine
end

