-- ==== Sys2Proof/Laws/Operands.lean ====
section
/-! SUPPORT. What the shared operations of the operands and the units can answer, once each, for callers to
cite instead of unfolding. -/

namespace Sys2Proof.Machine

variable {s t : State} {why : Refusal}

/-- Encoding a group succeeds exactly when every register of it has a value, and then holds the code of each.
-/
theorem encodeAll_eq_some {α : Type} {n : Nat} (f : FloatVal → α) (v : Vector (Reg 32) n)
    (codes : Vector α n) :
    encodeAll f v = some codes ↔
      ∀ i : Fin n, (floatVal v[i].value).map f = some codes[i] := by
  dsimp only [encodeAll]
  constructor
  · intro h i
    split at h
    next hs =>
      have hi := hs i
      cases h
      simp only [Fin.getElem_fin, Vector.getElem_ofFn] at hi ⊢
      exact (Option.some_get hi).symm
    next => cases h
  · intro h
    have hs : ∀ i : Fin n,
        ((Vector.ofFn fun i : Fin n => (floatVal v[i].value).map f)[i]).isSome := by
      intro i
      simp only [Fin.getElem_fin, Vector.getElem_ofFn]
      have := h i
      simp only [Fin.getElem_fin] at this
      rw [this]; rfl
    rw [dif_pos hs]
    congr 1
    ext i hi
    obtain ⟨x, hx, hf⟩ := Option.map_eq_some_iff.mp (h ⟨i, hi⟩)
    simp only [Fin.getElem_fin] at hx hf
    simp [hx, hf]

/-- Encoding a group fails exactly when a register of it holds a NaN pattern. -/
theorem encodeAll_eq_none {α : Type} {n : Nat} (f : FloatVal → α) (v : Vector (Reg 32) n) :
    encodeAll f v = none ↔ ∃ i : Fin n, floatVal v[i].value = none := by
  constructor
  · intro h
    by_contra hn
    push Not at hn
    have hs : ∀ i : Fin n, ∃ x, floatVal v[i].value = some x :=
      fun i => Option.ne_none_iff_exists'.mp (hn i)
    choose x hx using hs
    have : encodeAll f v = some (Vector.ofFn fun i => f (x i)) := by
      rw [encodeAll_eq_some]
      intro i
      rw [hx i]; simp
    rw [this] at h
    cases h
  · rintro ⟨i, hi⟩
    cases hc : encodeAll f v with
    | none => rfl
    | some codes =>
      have := (encodeAll_eq_some f v codes).mp hc i
      rw [hi] at this
      cases this

/-- A unit encoder completes exactly when `OPF` is written and has a value, and then writes `RES`. -/
theorem encodeOpf_next {n : Nat} (enc : FloatVal → BitVec n) :
    encodeOpf enc s = .next t ↔
      s.opf.written = true ∧
        ∃ x, floatVal s.opf.value = some x ∧ t = s.setRes ((enc x).setWidth 32) := by
  unfold encodeOpf
  cases hw : s.opf.written <;> cases hv : floatVal s.opf.value <;>
    simp [eq_comm (a := t)]

/-- A unit encoder is refused for an unwritten `OPF`, or for a NaN pattern in a written one (R135). -/
theorem encodeOpf_refused {n : Nat} (enc : FloatVal → BitVec n) :
    encodeOpf enc s = .refused why ↔
      (s.opf.written = false ∧ why = .unwrittenInput) ∨
        (s.opf.written = true ∧ floatVal s.opf.value = none ∧ why = .nanOperand) := by
  unfold encodeOpf
  cases hw : s.opf.written <;> cases hv : floatVal s.opf.value <;>
    simp [eq_comm (a := why)]

/-- A pack completes exactly when all nine codes are written, and then writes the six words. -/
theorem packCodeIn_next (layout : Vector Code16 9 → Vector Word 6) :
    packCodeIn layout s = .next t ↔
      allWritten s.codeIn = true ∧
        t = s.setCoeffWords (layout (Vector.ofFn fun i => s.codeIn[i].value)) := by
  unfold packCodeIn
  cases hw : allWritten s.codeIn <;> simp [eq_comm (a := t)]

/-- A pack is refused for an unwritten code alone. -/
theorem packCodeIn_refused (layout : Vector Code16 9 → Vector Word 6) :
    packCodeIn layout s = .refused why ↔
      allWritten s.codeIn = false ∧ why = .unwrittenInput := by
  unfold packCodeIn
  cases hw : allWritten s.codeIn <;> simp [eq_comm (a := why)]

/-- `BITREV` completes exactly when its inputs are written and the count is within the contract. -/
theorem execBitrev_next (var : BitVec 2) :
    execBitrev var s = .next t ↔
      s.opv.written = true ∧ s.opn.written = true ∧ s.opn.value.toNat ≤ 16 ∧
        t = s.setRes (BitVec.ofNat 32 (bitrev s.opv.value.toNat s.opn.value.toNat)) := by
  unfold execBitrev
  cases hv : s.opv.written <;> cases hn : s.opn.written <;> simp [Params.brMaxN]
  by_cases h : 16 < s.opn.value.toNat
  · simp [h, Nat.not_le.mpr h]
  · simp [h, Nat.not_lt.mp h, eq_comm (a := t)]

/-- `BITREV` is refused for an unwritten input, or for a count outside the contract (R70, R135). -/
theorem execBitrev_refused (var : BitVec 2) :
    execBitrev var s = .refused why ↔
      ((s.opv.written && s.opn.written) = false ∧ why = .unwrittenInput) ∨
        ((s.opv.written && s.opn.written) = true ∧ 16 < s.opn.value.toNat ∧
          why = .bitrevCountOutOfContract) := by
  unfold execBitrev
  cases hw : s.opv.written && s.opn.written
  · simp [eq_comm (a := why)]
  · by_cases h : 16 < s.opn.value.toNat <;> simp [Params.brMaxN, h, eq_comm (a := why)]

/-- `BUILD` completes in one of two ways: an unrecognised device, and only the echo is written; or a variant
whose inputs are written and whose stages all have values. -/
theorem execBuild_next (var : BitVec 2) :
    execBuild var s = .next t ↔
      s.devid.written = true ∧ s.validIn.written = true ∧
        ((s.classify s.devid.value = none ∧ t = echoStage s) ∨
          ∃ v u, s.classify s.devid.value = some v ∧ buildInputsWritten v s = true ∧
            (coefficientStage v s).bind (offsetStage v) = some u ∧
            t = echoStage (modeStage v u)) := by
  unfold execBuild buildRecognised
  cases hd : s.devid.written <;> cases hi : s.validIn.written <;> simp
  cases hc : s.classify s.devid.value with
  | none => simp [eq_comm (a := t)]
  | some v =>
    cases hb : buildInputsWritten v s <;>
      cases hu : (coefficientStage v s).bind (offsetStage v) <;>
        simp [hb, hu, eq_comm (a := t)]

/-- `BUILD` is refused for an unwritten input that its case reads, or because a stage met a NaN pattern (R118,
R135). -/
theorem execBuild_refused (var : BitVec 2) :
    execBuild var s = .refused why ↔
      ((s.devid.written && s.validIn.written) = false ∧ why = .unwrittenInput) ∨
        ((s.devid.written && s.validIn.written) = true ∧
          ∃ v, s.classify s.devid.value = some v ∧
            ((buildInputsWritten v s = false ∧ why = .unwrittenInput) ∨
              (buildInputsWritten v s = true ∧
                (coefficientStage v s).bind (offsetStage v) = none ∧ why = .nanOperand))) := by
  unfold execBuild buildRecognised
  cases hd : s.devid.written && s.validIn.written
  · simp [eq_comm (a := why)]
  · cases hc : s.classify s.devid.value with
    | none => simp
    | some v =>
      have hv (P : Variant → Prop) : (∃ w, some v = some w ∧ P w) ↔ P v := by simp
      simp only [hv]
      generalize (coefficientStage v s).bind (offsetStage v) = stages
      cases buildInputsWritten v s <;> cases stages <;> simp [eq_comm (a := why)]

end Sys2Proof.Machine
end

