-- ==== Sys2Proof/Laws/Builder.lean ====
section
/-! SUPPORT. The stages of `BUILD`, one lemma each, and the packed words as numbers. -/

namespace Sys2Proof.Machine

variable {s t u : State} {v : Variant}

/-! ### The validity bits -/

theorem offsetsValid_eq (s : State) : offsetsValid s = s.validIn.value.getLsbD 1 := rfl

theorem modeValid_eq (s : State) : modeValid s = s.validIn.value.getLsbD 2 := rfl

theorem isModern_iff (v : Variant) :
    isModern v = true ↔ v = .modernFamilyA ∨ v = .modernFamilyB := by
  cases v <;> simp [isModern]

/-! ### Groups whose values are known -/

theorem encodeAll_of_values {α : Type} {n : Nat} (f : FloatVal → α) {regs : Vector (Reg 32) n}
    {x : Fin n → FloatVal} (h : ∀ i : Fin n, floatVal regs[i].value = some (x i)) :
    encodeAll f regs = some (Vector.ofFn fun i => f (x i)) := by
  rw [encodeAll_eq_some]
  intro i
  rw [h i]
  simp

/-- The words of a modern matrix (R112). -/
theorem coefficientWords_modern (hv : isModern v = true) {x : Fin 9 → FloatVal}
    (h : ∀ i : Fin 9, floatVal s.coef[i].value = some (x i)) :
    coefficientWords v s = some (packM (Vector.ofFn fun i => enc16 (x i))) := by
  have hc := encodeAll_of_values enc16 h
  cases v with
  | legacyFamily => cases hv
  | modernFamilyA => rw [coefficientWords, hc]; rfl
  | modernFamilyB => rw [coefficientWords, hc]; rfl

/-- The words of a legacy matrix (R112). -/
theorem coefficientWords_legacy {x : Fin 9 → FloatVal}
    (h : ∀ i : Fin 9, floatVal s.coef[i].value = some (x i)) :
    coefficientWords .legacyFamily s =
      some (packL (Vector.ofFn fun i => (enc12 (x i)).setWidth 16)) := by
  rw [coefficientWords, encodeAll_of_values _ h]
  rfl

/-- The coefficient stage fails exactly on a NaN coefficient (R110). -/
theorem coefficientWords_eq_none :
    coefficientWords v s = none ↔ ∃ i : Fin 9, floatVal s.coef[i].value = none := by
  cases v <;> simp only [coefficientWords, Option.map_eq_none_iff, encodeAll_eq_none]

/-! ### The stages -/

/-- The input registers that a recognised variant reads (R119). -/
theorem buildInputsWritten_iff :
    buildInputsWritten v s = true ↔
      (∀ i : Fin 9, s.coef[i].written = true) ∧
        (offsetStageRuns v s = true →
          (∀ j : Fin 3, s.preoffIn[j].written = true) ∧
            ∀ j : Fin 3, s.postoffIn[j].written = true) ∧
        (modeStageRuns v s = true → s.modeIn.written = true) := by
  unfold buildInputsWritten
  cases offsetStageRuns v s <;> cases modeStageRuns v s <;>
    simp only [Bool.and_eq_true, Bool.not_true, Bool.not_false, Bool.true_or, Bool.false_or,
      allWritten_iff, and_assoc, true_imp_iff, false_imp_iff, Bool.false_eq_true, and_true, true_and]

theorem coefficientStage_eq_some :
    coefficientStage v s = some u ↔
      ∃ r, coefficientWords v s = some r ∧ u = s.setCoeffWords r := by
  simp [coefficientStage, eq_comm (a := u)]

/-- The offset stage writes all six words or none (R113). -/
theorem offsetStage_eq_some :
    offsetStage v s = some u ↔
      (offsetStageRuns v s = false ∧ u = s) ∨
        (offsetStageRuns v s = true ∧
          ∃ p q, offsetWords s.preoffIn = some p ∧ offsetWords s.postoffIn = some q ∧
            u = s.setOffsetWords p q) := by
  unfold offsetStage
  cases offsetStageRuns v s with
  | false => simp [eq_comm (a := u)]
  | true =>
    cases offsetWords s.preoffIn <;> cases offsetWords s.postoffIn <;>
      simp [eq_comm (a := u)]

/-- The stages fail exactly on a NaN pattern in a float register that they read (R110, R118). -/
theorem stages_eq_none :
    (coefficientStage v s).bind (offsetStage v) = none ↔
      (∃ i : Fin 9, floatVal s.coef[i].value = none) ∨
        (offsetStageRuns v s = true ∧ ∃ j : Fin 3,
          floatVal s.preoffIn[j].value = none ∨ floatVal s.postoffIn[j].value = none) := by
  unfold coefficientStage
  cases hc : coefficientWords v s with
  | none => simpa using .inl (coefficientWords_eq_none.mp hc)
  | some r =>
    have hn : ¬ ∃ i : Fin 9, floatVal s.coef[i].value = none :=
      fun h => by simp [coefficientWords_eq_none.mpr h] at hc
    rw [or_iff_right hn, exists_or, ← encodeAll_eq_none (fun x => (enc13 x).setWidth 32),
      ← encodeAll_eq_none (fun x => (enc13 x).setWidth 32)]
    show offsetStage v (s.setCoeffWords r) = none ↔
      offsetStageRuns v s = true ∧ (offsetWords s.preoffIn = none ∨ offsetWords s.postoffIn = none)
    unfold offsetStage
    show (if offsetStageRuns v s then
      match offsetWords s.preoffIn, offsetWords s.postoffIn with
      | some pre, some post => some _
      | _, _ => none
      else some _) = none ↔ _
    cases offsetStageRuns v s <;> cases offsetWords s.preoffIn <;>
      cases offsetWords s.postoffIn <;> simp

/-- The gates of the stages depend on the input registers only, which no stage writes. -/
@[simp] theorem offsetStageRuns_setCoeffWords (r : Vector Word 6) :
    offsetStageRuns v (s.setCoeffWords r) = offsetStageRuns v s := rfl

@[simp] theorem modeStageRuns_setCoeffWords (r : Vector Word 6) :
    modeStageRuns v (s.setCoeffWords r) = modeStageRuns v s := rfl

@[simp] theorem modeStageRuns_setOffsetWords (p q : Vector Word 3) :
    modeStageRuns v (s.setOffsetWords p q) = modeStageRuns v s := rfl

/-- `BUILD` for a recognised variant, whole: which words it writes, under which gates (R110). -/
theorem execBuild_recognised (var : BitVec 2) (hd : s.devid.written = true)
    (hi : s.validIn.written = true) (hc : s.classify s.devid.value = some v) :
    execBuild var s = .next t ↔
      buildInputsWritten v s = true ∧
        ∃ r, coefficientWords v s = some r ∧
          ((offsetStageRuns v s = false ∧ t = echoStage (modeStage v (s.setCoeffWords r))) ∨
            (offsetStageRuns v s = true ∧
              ∃ p q, offsetWords s.preoffIn = some p ∧ offsetWords s.postoffIn = some q ∧
                t = echoStage (modeStage v ((s.setCoeffWords r).setOffsetWords p q)))) := by
  rw [execBuild_next]
  simp only [hd, hi, hc, true_and, reduceCtorEq, false_and, false_or, Option.some.injEq,
    Option.bind_eq_some_iff, coefficientStage_eq_some, offsetStage_eq_some]
  constructor
  · rintro ⟨v', u, rfl, hb, ⟨w, ⟨r, hr, rfl⟩, hw⟩, rfl⟩
    refine ⟨hb, r, hr, ?_⟩
    rcases hw with ⟨ho, rfl⟩ | ⟨ho, p, q, hp, hq, rfl⟩
    · exact .inl ⟨ho, rfl⟩
    · exact .inr ⟨ho, p, q, hp, hq, rfl⟩
  · rintro ⟨hb, r, hr, hw⟩
    rcases hw with ⟨ho, rfl⟩ | ⟨ho, p, q, hp, hq, rfl⟩
    · exact ⟨v, _, rfl, hb, ⟨_, ⟨r, hr, rfl⟩, .inl ⟨ho, rfl⟩⟩, rfl⟩
    · exact ⟨v, _, rfl, hb, ⟨_, ⟨r, hr, rfl⟩, .inr ⟨ho, p, q, hp, hq, rfl⟩⟩, rfl⟩

/-! ### Packed words -/

/-- The two halves of a packed word lie side by side (R61). -/
theorem pairWord_toNat (hi lo : Code16) :
    (pairWord hi lo).toNat = hi.toNat * 2 ^ 16 + lo.toNat := by
  have hh := hi.isLt
  have hl := lo.isLt
  rw [pairWord, BitVec.toNat_or, BitVec.toNat_shiftLeft, BitVec.toNat_setWidth,
    BitVec.toNat_setWidth, Nat.mod_eq_of_lt (a := hi.toNat) (by omega),
    Nat.mod_eq_of_lt (a := lo.toNat) (by omega),
    Nat.mod_eq_of_lt (by rw [Nat.shiftLeft_eq]; omega), Nat.shiftLeft_eq,
    Nat.mul_comm hi.toNat, ← Nat.two_pow_add_eq_or_of_lt hl]

theorem highWord_toNat (c : Code16) : (c.setWidth 32 <<< 16).toNat = c.toNat * 2 ^ 16 := by
  have hc := c.isLt
  rw [BitVec.toNat_shiftLeft, BitVec.toNat_setWidth, Nat.mod_eq_of_lt (a := c.toNat) (by omega),
    Nat.shiftLeft_eq, Nat.mod_eq_of_lt (by omega)]

theorem lowWord_toNat (c : Code16) : (c.setWidth 32).toNat = c.toNat := by
  have hc := c.isLt
  rw [BitVec.toNat_setWidth, Nat.mod_eq_of_lt (by omega)]

end Sys2Proof.Machine
end

