-- ==== Sys2Proof/Laws/PerInstr.lean ====
section
/-! SUPPORT. Facts about the commands as syntax, one lemma per constructor: the word of every command lies in
its row of spec/opcode_table.json (`match` under `mask`). -/

namespace Sys2Proof.Laws.TableRow

/-- The row's `mask` and `match` in spec/opcode_table.json. -/
def row : Instr → CommandWord × CommandWord
  | .bitrev _ => (0x1C, 0x00)
  | .enccL => (0x1F, 0x05)
  | .enccM _ => (0x1E, 0x06)
  | .enco _ => (0x1C, 0x08)
  | .packL => (0x1F, 0x0D)
  | .packM _ => (0x1E, 0x0E)
  | .build _ => (0x1C, 0x10)
  | .reservedEncc0 => (0x1F, 0x04)
  | .reservedPack0 => (0x1F, 0x0C)
  | .reservedOp5 _ => (0x1C, 0x14)
  | .reservedOp67 _ _ => (0x18, 0x18)

/-- The command's word matches its row. -/
def Statement (i : Instr) : Prop := encode i &&& (row i).1 = (row i).2

theorem bitrev (var : BitVec 2) : Statement (.bitrev var) := by
  revert var; unfold Statement; decide

theorem enccL : Statement .enccL := by unfold Statement; decide

theorem enccM (fam : ModernFamily) : Statement (.enccM fam) := by
  cases fam <;> (unfold Statement; decide)

theorem enco (var : BitVec 2) : Statement (.enco var) := by
  revert var; unfold Statement; decide

theorem packL : Statement .packL := by unfold Statement; decide

theorem packM (fam : ModernFamily) : Statement (.packM fam) := by
  cases fam <;> (unfold Statement; decide)

theorem build (var : BitVec 2) : Statement (.build var) := by
  revert var; unfold Statement; decide

theorem reservedEncc0 : Statement .reservedEncc0 := by unfold Statement; decide

theorem reservedPack0 : Statement .reservedPack0 := by unfold Statement; decide

theorem reservedOp5 (var : BitVec 2) : Statement (.reservedOp5 var) := by
  revert var; unfold Statement; decide

theorem reservedOp67 (o : BitVec 1) (var : BitVec 2) : Statement (.reservedOp67 o var) := by
  revert o var; unfold Statement; decide

end Sys2Proof.Laws.TableRow
end

