-- ==== Sys2Proof/Tests/Slice0.lean ====
section
/-! SUPPORT. The model's own tests. Expected values are those of spec/95_test_vectors.md, or written out by
hand from the rule cited. Witnesses: for every obligation that has hypotheses, concrete values that meet
them together, at the boundaries of its clauses. -/

namespace Sys2Proof.Tests

open Sys2Proof Sys2Proof.Machine

/-! ## States -/

/-- A classification as in the premises of programs P1 to P3 (spec 95, section 3). -/
def table : List (Word × Variant) :=
  [(1, .legacyFamily), (2, .modernFamilyA), (3, .modernFamilyB)]

/-- Reset of a block with that classification. -/
def blank : State := State.resetWith table

/-- A group of registers, all written. -/
def group {w n : Nat} (v : Vector (BitVec w) n) : Vector (Reg w) n :=
  Vector.ofFn fun i => Reg.ofWrite v[i]

/-- The matrix FWD of spec 95, section 2.7. -/
def fwd : Vector Word 9 :=
  #v[0x3E991687, 0x3F1645A2, 0x3DE978D5, 0xBE2D0E56, 0xBEA978D5, 0x3F000000, 0x3F000000, 0xBED6872B,
    0xBDA5E354]

/-- The same matrix as the decimals of a line `LDMAT` (spec 95, program P2). -/
def fwdDecimals : Vector FloatLiteral 9 :=
  #v[.decimal (299 / 1000), .decimal (587 / 1000), .decimal (114 / 1000), .decimal (-169 / 1000),
    .decimal (-331 / 1000), .decimal (1 / 2), .decimal (1 / 2), .decimal (-419 / 1000),
    .decimal (-81 / 1000)]

/-- The offsets of the line `LDOFF` of program P2, the last two as patterns. -/
def offsets : Vector FloatLiteral 3 := #v[.decimal (1 / 16), .pattern 0x3F000000, .pattern 0x3F000000]

/-- The codes of the first packing vector of spec 95, section 2.5. -/
def codes : Vector Code16 9 :=
  #v[0x1111, 0x2222, 0x3333, 0x4444, 0x5555, 0x6666, 0x7777, 0x8888, 0x9999]

/-- Every input register written; the device and the validity mask are the arguments. -/
def ready (id valid : Word) : State :=
  { blank with
    coef := group fwd
    preoffIn := group #v[0, 0, 0]
    postoffIn := group #v[0x3D800000, 0x3F000000, 0x3F000000]
    validIn := Reg.ofWrite valid
    modeIn := Reg.ofWrite 1
    devid := Reg.ofWrite id
    opf := Reg.ofWrite 0xBE800000
    opv := Reg.ofWrite 0x2C5
    opn := Reg.ofWrite 10
    codeIn := group codes }

/-- Only what a unit operation on `OPF` reads. -/
def withOpf (p : Word) : State := { blank with opf := Reg.ofWrite p }

/-- Only what `BITREV` reads. -/
def withOpvOpn (v : Word) (n : BitVec 5) : State :=
  { blank with opv := Reg.ofWrite v, opn := Reg.ofWrite n }

/-- The state a step answers, if any. -/
def nextOf (o : Host.Outcome State Fault Refusal) : Option State :=
  match o with
  | .next t => some t
  | .fault _ => none
  | .refused _ => none

/-- Why a step is refused, if it is. -/
def refusalOf (o : Host.Outcome State Fault Refusal) : Option Refusal :=
  match o with
  | .next _ => none
  | .fault _ => none
  | .refused r => some r

/-- `RES` after an operation. -/
def resOf (o : Host.Outcome State Fault Refusal) : Option (Reg 32) := (nextOf o).map fun t => t.res

/-- `CSC_COEFF` after an operation. -/
def coeffOf (o : Host.Outcome State Fault Refusal) : Option (Vector (Reg 32) 6) :=
  (nextOf o).map fun t => t.cscCoeff

/-! ## Well-formedness: one ill-formed term for each check -/

theorem test_illformed_reserved_encc0 : Instr.reservedEncc0.wellFormed = false := by decide
theorem test_illformed_reserved_pack0 : Instr.reservedPack0.wellFormed = false := by decide
theorem test_illformed_reserved_op5 : (Instr.reservedOp5 2).wellFormed = false := by decide
theorem test_illformed_reserved_op6_7 : (Instr.reservedOp67 1 3).wellFormed = false := by decide
theorem test_illformed_output_write : (HostEvent.write 0x20 0).wellFormed = false := by decide
theorem test_illformed_unused_write : (HostEvent.write 0x1F 0).wellFormed = false := by decide
theorem test_illformed_wide_value : (HostEvent.write 0x14 32).wellFormed = false := by decide
theorem test_illformed_wide_command : (HostEvent.write 0x1E 32).wellFormed = false := by decide
theorem test_illformed_reserved_word : (HostEvent.write 0x1E 0x14).wellFormed = false := by decide
theorem test_illformed_unused_read : (HostEvent.read 0x2F).wellFormed = false := by decide
theorem test_wellformed_accesses :
    (HostEvent.write 0x14 31).wellFormed = true ∧ (HostEvent.write 0x1E 0x13).wellFormed = true
      ∧ (HostEvent.read 0x2E).wellFormed = true := by decide

/-! ## Decoding: one word for every constructor, written out from R50 to R52 and R62 -/

theorem test_decode_bitrev : decode 0b00000#5 = .bitrev 0 ∧ decode 0b00011#5 = .bitrev 3 := by decide
theorem test_decode_enccL : decode 0b00101#5 = .enccL := by decide
theorem test_decode_enccM : decode 0b00110#5 = .enccM .a ∧ decode 0b00111#5 = .enccM .b := by decide
theorem test_decode_enco : decode 0b01000#5 = .enco 0 ∧ decode 0b01010#5 = .enco 2 := by decide
theorem test_decode_packL : decode 0b01101#5 = .packL := by decide
theorem test_decode_packM : decode 0b01110#5 = .packM .a ∧ decode 0b01111#5 = .packM .b := by decide
theorem test_decode_build : decode 0b10000#5 = .build 0 ∧ decode 0b10011#5 = .build 3 := by decide
theorem test_decode_reservedEncc0 : decode 0b00100#5 = .reservedEncc0 := by decide
theorem test_decode_reservedPack0 : decode 0b01100#5 = .reservedPack0 := by decide
theorem test_decode_reservedOp5 : decode 0b10110#5 = .reservedOp5 2 := by decide
theorem test_decode_reservedOp67 :
    decode 0b11001#5 = .reservedOp67 0 1 ∧ decode 0b11111#5 = .reservedOp67 1 3 := by decide
theorem test_decodeTableWord : decodeTableWord 8 0x05 = some .enccL ∧ decodeTableWord 8 0x20 = none := by
  decide

/-! ## Instructions: at most two small tests each -/

/-- Spec 95, section 2.1. -/
theorem test_bitrev : resOf (exec (.bitrev 0) (withOpvOpn 0x2C5 10)) = some (Reg.ofWrite 0x28D) := by
  decide

/-- Spec 95, section 2.1: bits at and above `n` are ignored; `var` is too (R52). -/
theorem test_bitrev_full_width :
    resOf (exec (.bitrev 3) (withOpvOpn 0xABCD1234 16)) = some (Reg.ofWrite 0x2C48) := by decide

/-- Spec 95, section 2.2: −0.169. -/
theorem test_enccL_negative :
    resOf (exec .enccL (withOpf 0xBE2D0E56)) = some (Reg.ofWrite 0xF53) := by decide +kernel

/-- Spec 95, section 2.2: 2.018 is clipped. -/
theorem test_enccL_clipped :
    resOf (exec .enccL (withOpf 0x400126E9)) = some (Reg.ofWrite 0x7FE) := by decide +kernel

/-- Spec 95, section 2.3: −0.169, two zeros absorbed. -/
theorem test_enccM_negative :
    resOf (exec (.enccM .a) (withOpf 0xBE2D0E56)) = some (Reg.ofWrite 0xAAD0) := by decide +kernel

/-- Spec 95, section 2.3: 1.999 overflows to the code of 1. -/
theorem test_enccM_overflow :
    resOf (exec (.enccM .b) (withOpf 0x3FFFDF3B)) = some (Reg.ofWrite 0x7800) := by decide +kernel

/-- Spec 95, section 2.4: −0.25 (S3). -/
theorem test_enco_negative :
    resOf (exec (.enco 0) (withOpf 0xBE800000)) = some (Reg.ofWrite 0x1800) := by decide +kernel

/-- Spec 95, section 2.4: 2^-14, half a step rounds up. -/
theorem test_enco_half_step :
    resOf (exec (.enco 3) (withOpf 0x38800000)) = some (Reg.ofWrite 0x0001) := by decide +kernel

/-- Spec 95, section 2.5, second row. -/
theorem test_packL :
    coeffOf (exec .packL { blank with codeIn := group codes }) =
      some (group #v[0x22221111, 0x00003333, 0x55554444, 0x00006666, 0x88887777, 0x00009999]) := by
  decide

/-- Spec 95, section 2.5, first row (S4). -/
theorem test_packM :
    coeffOf (exec (.packM .a) { blank with codeIn := group codes }) =
      some (group #v[0x11112222, 0x33330000, 0x44445555, 0x66660000, 0x77778888, 0x99990000]) := by
  decide

/-- Spec 95, program P2 (and P2b: the word 0x13). -/
theorem test_build_modern :
    (nextOf (exec (.build 3) (ready 2 7))).map
        (fun t => (t.cscCoeff, t.cscPreoff, t.cscPostoff, t.cscMode, t.validOut)) =
      some (group #v[0x19900968, 0x3E980000, 0xAAD09A98, 0x08000000, 0x08009D68, 0xBA600000],
        group #v[0, 0, 0], group #v[0x200, 0x1000, 0x1000], Reg.ofWrite 2, Reg.ofWrite 7) := by
  decide +kernel

/-- Spec 95, section 2.7, FWD legacy, with every validity bit set. -/
theorem test_build_legacy :
    (nextOf (exec (.build 0) (ready 1 7))).map
        (fun t => (t.cscCoeff, t.cscPreoff[0].written, t.cscMode.written, t.validOut)) =
      some (group #v[0x02590132, 0x00000074, 0x0EAE0F53, 0x00000200, 0x0E530200, 0x00000FAE],
        false, false, Reg.ofWrite 7) := by
  decide +kernel

/-- R62: the word 0x04. -/
theorem test_reservedEncc0 : refusalOf (exec .reservedEncc0 (ready 1 7)) = some .reservedCommand := by
  decide

/-- R62: the word 0x0C. -/
theorem test_reservedPack0 : refusalOf (exec .reservedPack0 (ready 1 7)) = some .reservedCommand := by
  decide

/-- R62: a word 0x14 to 0x17. -/
theorem test_reservedOp5 : refusalOf (exec (.reservedOp5 1) (ready 1 7)) = some .reservedCommand := by
  decide

/-- R62: a word 0x18 to 0x1F. -/
theorem test_reservedOp67 :
    refusalOf (exec (.reservedOp67 1 0) (ready 1 7)) = some .reservedCommand := by decide

/-- Spec 95, program P5 line 1: `BUILD` right after reset. -/
theorem test_refused_unwritten :
    refusalOf (step { blank with pending := [.write 0x1E 0x10] }) = some .unwrittenInput := by decide

/-- Spec 95, program P5 line 14'. -/
theorem test_refused_nan :
    refusalOf (step { withOpf 0x7FC00000 with pending := [.write 0x1E 0x05] }) = some .nanOperand := by
  decide

/-- Spec 95, section 2.1, last row: `OPN` = 17. -/
theorem test_refused_bitrev_count :
    refusalOf (step { withOpvOpn 0 17 with pending := [.write 0x1E 0x00] }) =
      some .bitrevCountOutOfContract := by decide

/-- R43: a host read of a written register. -/
theorem test_read :
    (nextOf (step { withOpf 0xBE800000 with pending := [.read 0x12] })).map (fun t => t.answers) =
      some [{ reg := .inp .opf, value := 0xBE800000 }] := by decide

/-- R69, spec 95 program P2, lines 4 to 12: the numbers and patterns of an `LDMAT` of decimals. -/
theorem test_ldmat :
    assemble (.ldmat fwdDecimals) =
      [.write 0x00 0x3E991687, .write 0x01 0x3F1645A2, .write 0x02 0x3DE978D5, .write 0x03 0xBE2D0E56,
        .write 0x04 0xBEA978D5, .write 0x05 0x3F000000, .write 0x06 0x3F000000, .write 0x07 0xBED6872B,
        .write 0x08 0xBDA5E354] := by decide +kernel

/-- Spec 95, section 2.2: the pattern of −0.169. -/
theorem test_nearest_pattern : nearestPattern (-169 / 1000) = 0xBE2D0E56 := by decide +kernel

/-! ## Witnesses: concrete values that meet the hypotheses of each obligation -/

/-- The ready state with a host about to make one access more and then a read. -/
def facing (e : HostEvent) : State := { ready 2 7 with pending := [e, .read 0x20] }

theorem witness_StepRunsDecodedCommand :
    (facing (.write 0x1E 0x1F)).pending = .write 0x1E (0x1F#5).toNat :: [.read 0x20]
      ∧ (facing (.write 0x1E 0x10)).pending
        = .write 0x1E (encode (.build 0)).toNat :: [.read 0x20] := by decide

theorem witness_CommandRegisterReadsBack :
    ((facing (.write 0x1E 0x0E)).pending = .write 0x1E (0x0E#5).toNat :: [.read 0x20]
        ∧ ∃ t, step (facing (.write 0x1E 0x0E)) = .next t)
      ∧ ({ facing (.read 0x1E) with cmd := Reg.ofWrite 0x0E }).pending
        = .read 0x1E :: [.read 0x20] := by
  exact ⟨⟨by decide, _, rfl⟩, by decide⟩

theorem witness_RegisterNumbersExact : (0x1F = 0x1F ∨ 0x2F ≤ 0x1F) ∧ (0x2F = 0x1F ∨ 0x2F ≤ 0x2F) := by
  decide

theorem witness_HostWriteStoresOneRegister :
    (facing (.write 0x14 31)).pending = .write (RegName.inp .opn).number 31 :: [.read 0x20]
      ∧ 31 < 2 ^ InReg.opn.width
      ∧ (facing (.write 0x1D 0xFFFF)).pending
        = .write (RegName.inp (.codeIn 8)).number 0xFFFF :: [.read 0x20]
      ∧ 0xFFFF < 2 ^ (InReg.codeIn 8).width := by decide

theorem witness_HostReadAnswers :
    (facing (.read 0x14)).pending = .read (RegName.inp .opn).number :: [.read 0x20]
      ∧ ((facing (.read 0x14)).reg (.inp .opn)).written = true
      ∧ (facing (.read 0x2E)).pending = .read (RegName.out .validOut).number :: [.read 0x20]
      ∧ ((facing (.read 0x2E)).reg (.out .validOut)).written = false := by decide

theorem witness_ForbiddenAccessesRefused :
    (facing (.write 0x20 5)).pending = .write (RegName.out .res).number 5 :: [.read 0x20]
      ∧ (facing (.write 0x1F 5)).pending = .write 0x1F 5 :: [.read 0x20]
      ∧ (facing (.write 0x2F 5)).pending = .write 0x2F 5 :: [.read 0x20]
      ∧ (facing (.read 0x1F)).pending = .read 0x1F :: [.read 0x20]
      ∧ (facing (.read 0x2F)).pending = .read 0x2F :: [.read 0x20]
      ∧ (2 ^ InReg.opn.width ≤ 32
        ∧ (facing (.write 0x14 32)).pending = .write (RegName.inp .opn).number 32 :: [.read 0x20])
      ∧ (2 ^ 5 ≤ 32 ∧ (facing (.write 0x1E 32)).pending = .write 0x1E 32 :: [.read 0x20])
      ∧ (facing (.write 0x1E 0x04)).pending = .write 0x1E 0x04 :: [.read 0x20]
      ∧ (facing (.write 0x1E 0x0C)).pending = .write 0x1E 0x0C :: [.read 0x20]
      ∧ (0x14 ≤ 0x14 ∧ 0x14 ≤ 0x1F)
      ∧ (0x14 ≤ 0x1F ∧ (facing (.write 0x1E 0x1F)).pending = .write 0x1E 0x1F :: [.read 0x20]) := by
  decide

theorem witness_IdleBlockKeepsState : (ready 2 7).pending = [] := by decide

theorem witness_PseudoInstructionsLoad :
    (∃ s : State, s.pending = assemble (.ldmat fwdDecimals) ++ [.read 0x00])
      ∧ (∃ s : State, s.pending = assemble (.ldoff offsets offsets) ++ [.read 0x09])
      ∧ ∃ s : State, s.pending = assemble (.ldcodes codes) ++ [.read 0x15] :=
  ⟨⟨{ blank with pending := assemble (.ldmat fwdDecimals) ++ [.read 0x00] }, rfl⟩,
    ⟨{ blank with pending := assemble (.ldoff offsets offsets) ++ [.read 0x09] }, rfl⟩,
    ⟨{ blank with pending := assemble (.ldcodes codes) ++ [.read 0x15] }, rfl⟩⟩

theorem witness_ResetLeavesRegistersUnwritten :
    (facing .reset).pending = .reset :: [.read 0x20] := by decide

theorem witness_CommandsRefusedAfterReset : (Instr.build 3).wellFormed = true := by decide

/-- The facing state with the outputs of program P2 written, `RES` at its widest and the mode word 2. -/
def written (e : HostEvent) : State :=
  { facing e with
    res := Reg.ofWrite 0xFFFF
    cscCoeff := group #v[0x19900968, 0x3E980000, 0xAAD09A98, 0x08000000, 0x08009D68, 0xBA600000]
    cscPreoff := group #v[0x1FFF, 0, 0]
    cscPostoff := group #v[0x200, 0x1000, 0x1000]
    cscMode := Reg.ofWrite 2
    validOut := Reg.ofWrite 7 }

theorem witness_StepKeepsOutputInvariant : OutputsLegal (written (.write 0x1E 0x00))
    ∧ ∃ t, step (written (.write 0x1E 0x00)) = .next t := by
  refine ⟨?_, _, rfl⟩
  unfold OutputsLegal OutputFieldsLegal CoeffLayoutLegal BlockWhole allOrNone
  decide

theorem witness_ClassificationFixed : ∃ t, step (facing .reset) = .next t := ⟨_, rfl⟩

/-- Every cause of a refusal arises. -/
theorem witness_StepRefusalsHaveCause :
    refusalOf (step (facing (.write 0x1E 0x0C))) = some .reservedCommand
      ∧ refusalOf (step { facing (.write 0x1E 0x03) with opn := Reg.ofWrite 31 })
        = some .bitrevCountOutOfContract
      ∧ refusalOf (step { facing (.write 0x1E 0x08) with opf := Reg.ofWrite 0xFFFFFFFF })
        = some .nanOperand
      ∧ refusalOf (step { facing (.write 0x1E 0x10) with modeIn := Reg.unwritten 32 })
        = some .unwrittenInput
      ∧ refusalOf (step (facing (.write 0x2E 0))) = some .hostWriteToOutput
      ∧ refusalOf (step (facing (.read 0x2F))) = some .unusedRegister
      ∧ refusalOf (step (facing (.write 0x15 0x10000))) = some .writeWiderThanRegister := by decide

theorem witness_CommandFrame :
    (∃ t, exec .packL (ready 2 7) = .next t)
      ∧ OutReg.res ∉ commandWrites .packL (ready 2 7)
      ∧ OutReg.cscCoeff 5 ∈ commandWrites .packL (ready 2 7) := by
  exact ⟨⟨_, rfl⟩, by decide, by decide⟩

/-- A `BUILD` that reads neither offsets nor mode, in two states that differ in these and in `RES`. -/
theorem witness_CommandDependsOnItsReadsOnly :
    (nextOf (exec (.build 0) (ready 2 1))).isSome = true
      ∧ (∀ r ∈ commandReads (.build 0) (ready 2 1),
        ({ ready 2 1 with
          preoffIn := group #v[0x7FC00000, 1, 2], modeIn := Reg.unwritten 32,
          res := Reg.ofWrite 9 }).input r = (ready 2 1).input r)
      ∧ ({ ready 2 1 with
          preoffIn := group #v[0x7FC00000, 1, 2], modeIn := Reg.unwritten 32,
          res := Reg.ofWrite 9 }).classTable = (ready 2 1).classTable := by
  decide +kernel

theorem witness_RepeatedCommandChangesNothing :
    (nextOf (exec (.build 0) (ready 3 7))).isSome = true := by decide +kernel

theorem witness_CommandCompletesIffReady :
    Machine.ready (.build 0) (ready 3 7) = true ∧ Machine.ready (.bitrev 0) (withOpvOpn 1 16) = true
      ∧ Machine.ready (.bitrev 0) (withOpvOpn 1 17) = false := by decide +kernel

theorem witness_RefusalsInOrder :
    ((Instr.build 0).wellFormed = true ∧ inputsWritten (.build 0) blank = false)
      ∧ (inputsWritten (.bitrev 0) (withOpvOpn 1 17) = true
        ∧ operandsLegal (.bitrev 0) (withOpvOpn 1 17) = false)
      ∧ inputsWritten .enccL (withOpf 0x7F800001) = true
        ∧ operandsLegal .enccL (withOpf 0x7F800001) = false := by decide

theorem witness_ReservedCommandsRefused :
    (0x14 ≤ (0x14#5).toNat) ∧ 0x14 ≤ (0x1F#5).toNat := by decide

theorem witness_InstancesIsolated :
    (∃ l, stepInstance 0 [facing (.write 0x1E 0x00), facing (.read 0x12)] = .next l)
      ∧ (∃ l, stepInstance 1 [facing (.write 0x1E 0x00), facing (.read 0x12)] = .next l)
      ∧ (1 : Nat) ≠ 0 :=
  ⟨⟨_, rfl⟩, ⟨_, rfl⟩, by decide⟩

theorem witness_BitrevMirrorsField : 16 ≤ 16 ∧ (bitrev 0x1234 16).testBit 15 = false := by decide

theorem witness_BitrevSelfInverse : 0 ≤ 16 ∧ bitrev (bitrev 0xABCD1234 16) 16 = 0x1234 := by decide

theorem witness_BitrevWritesRes :
    (withOpvOpn 0xFF 16).opv.written = true ∧ (withOpvOpn 0xFF 16).opn.written = true
      ∧ (withOpvOpn 0xFF 16).opn.value.toNat ≤ 16
      ∧ 16 < (withOpvOpn 0xFF 17).opn.value.toNat ∧ (withOpvOpn 0xFF 17).opn.written = true := by
  decide

/-- One pattern per clause: an infinity, a NaN, the largest subnormal number, the smallest and the largest
normal numbers. -/
theorem witness_FloatPatternValue :
    (0xFF800000#32).toNat = true.toNat * 2 ^ 31 + 0xFF * 2 ^ 23 + 0
      ∧ (0x7F800001#32).toNat = false.toNat * 2 ^ 31 + 0xFF * 2 ^ 23 + 1
      ∧ (0x807FFFFF#32).toNat = true.toNat * 2 ^ 31 + 0 * 2 ^ 23 + (2 ^ 23 - 1)
      ∧ (0x00800000#32).toNat = false.toNat * 2 ^ 31 + 1 * 2 ^ 23 + 0
      ∧ (0xFF7FFFFF#32).toNat = true.toNat * 2 ^ 31 + 0xFE * 2 ^ 23 + (2 ^ 23 - 1) := by decide

/-- For EnccLWritesRes, EnccMWritesRes and EncoWritesRes. -/
theorem witness_EncodeOpf :
    (withOpf 0xBE800000).opf.written = true
      ∧ floatVal (withOpf 0xBE800000).opf.value = some (.finite (-(1 / 4)))
      ∧ (withOpf 0x7FC00000).opf.written = true
      ∧ floatVal (withOpf 0x7FC00000).opf.value = none := by decide +kernel

theorem witness_Enc12ClosedForm :
    (0 : ℚ) ≤ 0 ∧ (0 : ℚ) ≤ 1999 / 1000 ∧ (-(1 / 2 ^ 11) : ℚ) < 0
      ∧ enc12 (.finite (1999 / 1000)) = 0x7FE ∧ enc12 (.finite (-(1 / 2 ^ 11))) = 0 := by
  decide +kernel

/-- Below 1: the lower end of each exponent's range, and one below the cap. -/
theorem witness_Enc16ClosedForm_below_one (z : Fin 5) :
    (1 / 2 ^ ((z : ℕ) + 1) : ℚ) ≠ 0
      ∧ (1 / 2 ^ ((z : ℕ) + 1) : ℚ) = min |1 / 2 ^ ((z : ℕ) + 1)| (2999 / 1000)
      ∧ (1 / 2 ^ ((z : ℕ) + 1) : ℚ) < 1
      ∧ (1 / 2 ^ ((z : ℕ) + 1) : ℚ) ≤ 1 / 2 ^ ((z : ℕ) + 1)
      ∧ (1 / 2 ^ ((z : ℕ) + 1) : ℚ) < 1 / 2 ^ (z : ℕ) := by
  revert z; decide +kernel

/-- From 1 up: 1, and -3, which is clipped and rounds to 256. -/
theorem witness_Enc16ClosedForm_from_one :
    ((1 : ℚ) = min |1| (2999 / 1000) ∧ (1 : ℚ) ≤ 1
        ∧ roundHalfUp (256 * ((1 : ℚ) - (⌊(1 : ℚ)⌋ : ℤ))) ≤ 255)
      ∧ (2999 / 1000 : ℚ) = min |-3| (2999 / 1000) ∧ (1 : ℚ) ≤ 2999 / 1000
        ∧ roundHalfUp (256 * ((2999 / 1000 : ℚ) - (⌊(2999 / 1000 : ℚ)⌋ : ℤ))) = 256 := by
  decide +kernel

theorem witness_Enc16ClosedForm_tiny :
    (-(1 / 2 ^ 14) : ℚ) ≠ 0 ∧ |(-(1 / 2 ^ 14) : ℚ)| < 1 / 2 ^ 13
      ∧ enc16 (.finite (-(1 / 2 ^ 14))) = 0xB000 := by decide +kernel

/-- The first value of every overflow set. -/
theorem witness_Enc16OverflowSets :
    (∀ e : Fin 4, ((1 - 1 / 1024) / 2 ^ (e : ℕ) : ℚ) < 1 / 2 ^ (e : ℕ))
      ∧ (1023 / 512 : ℚ) < 2 ∧ (1535 / 512 : ℚ) ≤ 2999 / 1000 := by decide +kernel

theorem witness_CoefficientSignSymmetry :
    FloatVal.infinite true ≠ .finite 0 ∧ FloatVal.finite (-(1 / 2 ^ 20)) ≠ .finite 0 := by
  decide +kernel

theorem witness_CoefficientClipping :
    (1999 / 1000 : ℚ) ≤ 1999 / 1000 ∧ (-2 : ℚ) ≤ -(1999 / 1000)
      ∧ (2999 / 1000 : ℚ) ≤ 2999 / 1000 ∧ (-3 : ℚ) ≤ -(2999 / 1000) := by decide +kernel

theorem witness_CoefficientRoundTripBound :
    inOverflowSet (clippedMagnitude (2999 / 1000) (.infinite true)) = true
      ∧ (inOverflowSet (clippedMagnitude (2999 / 1000) (.finite 0)) = false
        ∧ exponentField (enc16 (.finite 0)) ≤ 3)
      ∧ (inOverflowSet (clippedMagnitude (2999 / 1000) (.finite (1 / 100))) = false
        ∧ exponentField (enc16 (.finite (1 / 100))) = 3)
      ∧ inOverflowSet (clippedMagnitude (2999 / 1000) (.finite (-2))) = false
        ∧ 6 ≤ exponentField (enc16 (.finite (-2))) := by decide +kernel

theorem witness_CoefficientMonotonicity :
    (0 : ℚ) ≤ 0 ∧ (0 : ℚ) ≤ 1999 / 1000
      ∧ (0 : ℚ) < 999 / 1000 ∧ (999 / 1000 : ℚ) ≤ 1
      ∧ inOverflowSet (min (999 / 1000) (2999 / 1000)) = false
      ∧ inOverflowSet (min 1 (2999 / 1000)) = false := by decide +kernel

theorem witness_Enc16LoopBounded :
    (({ a := 1 / 3, e := 0, seen1 := false, m := 0, k := 0 } : Emission).k = 0)
      ∧ (0 : ℚ) ≤ 1 / 2 ^ 20 ∧ (1 / 2 ^ 20 : ℚ) < 1 ∧ (emission (1 / 2 ^ 20)).e = 3 := by
  decide +kernel

theorem witness_Enc13ClosedForm :
    (0 : ℚ) ≤ 999 / 1000 ∧ (-(1 / 2 ^ 15) : ℚ) < 0 ∧ enc13 (.finite (999 / 1000)) = 0x1FF8
      ∧ enc13 (.finite (-(1 / 2 ^ 15))) = 0 := by decide +kernel

theorem witness_OffsetMonotonicity :
    (0 : ℚ) ≤ 0 ∧ (0 : ℚ) ≤ 1 / 2 ^ 13 ∧ (1 / 2 ^ 13 : ℚ) ≤ 999 / 1000
      ∧ (1 / 2 ^ 13 : ℚ) ≤ 1 / 2 ^ 13 - 0 := by decide +kernel

theorem witness_OffsetUsesAllThirteenBits :
    (1 / 2 : ℚ) ≤ 1 / 2 ∧ (enc13 (.finite (1 / 2))).getLsbD 12 = true := by decide +kernel

/-- For PackLWritesWords and PackMWritesWords. -/
theorem witness_PackWritesWords : ∀ i : Fin 9, (ready 2 7).codeIn[i].written = true := by decide

/-- The six offset patterns of the ready state, and its coefficient patterns, have values. -/
theorem witness_BuildModernWrites :
    (ready 3 7).devid.written = true ∧ (ready 3 7).validIn.written = true
      ∧ (ready 3 7).classify (ready 3 7).devid.value = some .modernFamilyB
      ∧ (ready 2 7).classify (ready 2 7).devid.value = some .modernFamilyA
      ∧ (∀ i : Fin 9, (ready 3 7).coef[i].written = true
        ∧ (floatVal (ready 3 7).coef[i].value).isSome = true)
      ∧ (∀ j : Fin 3, (ready 3 7).preoffIn[j].written = true
        ∧ floatVal (ready 3 7).preoffIn[j].value = some (.finite 0)
        ∧ (ready 3 7).postoffIn[j].written = true
        ∧ floatVal (ready 3 7).postoffIn[j].value
          = some (if j = 0 then .finite (1 / 16) else .finite (1 / 2)))
      ∧ (ready 3 7).validIn.value.getLsbD 1 = true ∧ (ready 3 7).validIn.value.getLsbD 2 = true
      ∧ (ready 3 7).modeIn.written = true := by decide +kernel

/-- With both gates shut nothing of the offsets and the mode is asked for. -/
theorem witness_BuildModernWrites_gates_shut :
    (ready 2 0xFFFFFFF9).validIn.value.getLsbD 1 = false
      ∧ (ready 2 0xFFFFFFF9).validIn.value.getLsbD 2 = false := by decide

theorem witness_BuildLegacyWrites :
    (ready 1 7).devid.written = true ∧ (ready 1 7).validIn.written = true
      ∧ (ready 1 7).classify (ready 1 7).devid.value = some .legacyFamily
      ∧ ∀ i : Fin 9, (ready 1 7).coef[i].written = true
        ∧ (floatVal (ready 1 7).coef[i].value).isSome = true := by decide +kernel

theorem witness_BuildUnrecognisedEchoes :
    (ready 0xFF 7).devid.written = true ∧ (ready 0xFF 7).validIn.written = true
      ∧ (ready 0xFF 7).classify (ready 0xFF 7).devid.value = none := by decide

/-- The ready state with a NaN pattern as the last offset. -/
def nanOffset (valid : Word) : State :=
  { ready 2 valid with postoffIn := group #v[0, 0, 0x7FC00000] }

theorem witness_BuildRefusesNan :
    (inputsWritten (.build 0) { ready 1 7 with coef := group (fwd.set 8 0x7F800001) } = true
        ∧ (State.classify { ready 1 7 with coef := group (fwd.set 8 0x7F800001) } 1)
          = some .legacyFamily
        ∧ floatVal ({ ready 1 7 with coef := group (fwd.set 8 0x7F800001) }).coef[8].value = none)
      ∧ ((nanOffset 7).classify (nanOffset 7).devid.value = some .modernFamilyA
        ∧ inputsWritten (.build 0) (nanOffset 7) = true
        ∧ (nanOffset 7).validIn.value.getLsbD 1 = true
        ∧ floatVal (nanOffset 7).postoffIn[2].value = none)
      ∧ inputsWritten (.build 0) (nanOffset 1) = true
        ∧ (nanOffset 1).validIn.value.getLsbD 1 = false
        ∧ ∀ i : Fin 9, floatVal (nanOffset 1).coef[i].value ≠ none := by decide +kernel

theorem witness_BuildEqualsUnitOperations :
    (nextOf (exec (.build 0) (ready 2 7))).isSome = true
      ∧ (ready 2 7).classify (ready 2 7).devid.value = some .modernFamilyA
      ∧ (∀ i : Fin 9,
        (nextOf (exec (.enccM .a) { ready 2 7 with opf := (ready 2 7).coef[i] })).isSome = true)
      ∧ ∀ j : Fin 3,
        (nextOf (exec (.enco 0) { ready 2 7 with opf := (ready 2 7).preoffIn[j] })).isSome = true
          ∧ (nextOf (exec (.enco 0) { ready 2 7 with opf := (ready 2 7).postoffIn[j] })).isSome
            = true := by decide +kernel

/-- The legacy case, in which no offset is asked for. -/
theorem witness_BuildEqualsUnitOperations_legacy :
    (nextOf (exec (.build 0) (ready 1 7))).isSome = true
      ∧ (ready 1 7).classify (ready 1 7).devid.value = some .legacyFamily
      ∧ ∀ i : Fin 9,
        (nextOf (exec .enccL { ready 1 7 with opf := (ready 1 7).coef[i] })).isSome = true := by
  decide +kernel

theorem witness_ModernFamiliesIdentical :
    (ready 2 7).classify (ready 2 7).devid.value = some .modernFamilyA
      ∧ State.classify { ready 2 7 with classTable := [(2, .modernFamilyB)] }
        (ready 2 7).devid.value = some .modernFamilyB := by decide

end Sys2Proof.Tests
end

section
/-! PROOF. `BUILD` reads the classification only through the variant of the device, and the variant only through
whether it is modern (R10, R119). So replacing the classification by one that keeps the device modern carries a
completed `BUILD` to a completed `BUILD`; replacing it twice, back to the first one, gives the converse. -/

namespace Sys2Proof.Machine

/-- The state with another classification (R67), which is the record update of the statement. -/
def State.withClassTable (s : State) (table : List (Word × Variant)) : State :=
  { s with classTable := table }

variable {s t : State} {v w : Variant} {table : List (Word × Variant)}

/-! ### Another classification -/

@[simp] theorem State.withClassTable_classTable :
    (s.withClassTable table).classTable = table := rfl

@[simp] theorem State.withClassTable_self : s.withClassTable s.classTable = s := rfl

@[simp] theorem State.withClassTable_withClassTable (table' : List (Word × Variant)) :
    (s.withClassTable table').withClassTable table = s.withClassTable table := rfl

/-! No stage of `BUILD` reads the classification, and none writes it. -/

@[simp] theorem buildInputsWritten_withClassTable :
    buildInputsWritten v (s.withClassTable table) = buildInputsWritten v s := rfl

@[simp] theorem coefficientWords_withClassTable :
    coefficientWords v (s.withClassTable table) = coefficientWords v s := rfl

@[simp] theorem offsetStageRuns_withClassTable :
    offsetStageRuns v (s.withClassTable table) = offsetStageRuns v s := rfl

theorem State.setCoeffWords_withClassTable (r : Vector Word 6) :
    (s.withClassTable table).setCoeffWords r = (s.setCoeffWords r).withClassTable table := rfl

theorem State.setOffsetWords_withClassTable (p q : Vector Word 3) :
    (s.withClassTable table).setOffsetWords p q = (s.setOffsetWords p q).withClassTable table := rfl

theorem echoStage_withClassTable :
    echoStage (s.withClassTable table) = (echoStage s).withClassTable table := rfl

@[simp] theorem modeStageRuns_withClassTable :
    modeStageRuns v (s.withClassTable table) = modeStageRuns v s := rfl

theorem modeStage_withClassTable :
    modeStage v (s.withClassTable table) = (modeStage v s).withClassTable table := by
  unfold modeStage
  rw [modeStageRuns_withClassTable]
  split <;> rfl

/-! ### Only whether the variant is modern matters (R10) -/

theorem coefficientWords_congr (h : isModern v = isModern w) :
    coefficientWords v s = coefficientWords w s := by
  cases v <;> cases w <;> cases h <;> rfl

theorem offsetStageRuns_congr (h : isModern v = isModern w) :
    offsetStageRuns v s = offsetStageRuns w s := by
  rw [offsetStageRuns, h, ← offsetStageRuns]

theorem modeStageRuns_congr (h : isModern v = isModern w) :
    modeStageRuns v s = modeStageRuns w s := by
  rw [modeStageRuns, h, ← modeStageRuns]

theorem buildInputsWritten_congr (h : isModern v = isModern w) :
    buildInputsWritten v s = buildInputsWritten w s := by
  rw [buildInputsWritten, offsetStageRuns_congr h, modeStageRuns_congr h, ← buildInputsWritten]

theorem modeStage_congr (h : isModern v = isModern w) : modeStage v s = modeStage w s := by
  rw [modeStage, modeStageRuns_congr h, ← modeStage]

/-! ### `BUILD` under another classification -/

theorem exec_build (var : BitVec 2) (s : State) : exec (.build var) s = execBuild var s := rfl

/-- A completed `BUILD` still completes, and writes the same words, under a classification that keeps whether the
device is modern. -/
theorem execBuild_withClassTable (var : BitVec 2) (hs : s.classify s.devid.value = some v)
    (hw : (s.withClassTable table).classify s.devid.value = some w) (h : isModern v = isModern w)
    (hb : execBuild var s = .next t) :
    execBuild var (s.withClassTable table) = .next (t.withClassTable table) := by
  obtain ⟨hd, hi, -⟩ := (execBuild_next var).mp hb
  obtain ⟨hin, r, hr, hoff⟩ := (execBuild_recognised var hd hi hs).mp hb
  have hin' : buildInputsWritten w (s.withClassTable table) = true := by
    rwa [buildInputsWritten_withClassTable, ← buildInputsWritten_congr h]
  have hr' : coefficientWords w (s.withClassTable table) = some r := by
    rwa [coefficientWords_withClassTable, ← coefficientWords_congr h]
  have hruns : offsetStageRuns w (s.withClassTable table) = offsetStageRuns v s := by
    rw [offsetStageRuns_withClassTable, ← offsetStageRuns_congr h]
  refine (execBuild_recognised (s := s.withClassTable table) var hd hi hw).mpr ⟨hin', r, hr', ?_⟩
  rw [hruns, State.setCoeffWords_withClassTable]
  rcases hoff with ⟨ho, rfl⟩ | ⟨ho, p, q, hp, hq, rfl⟩
  · refine .inl ⟨ho, ?_⟩
    rw [modeStage_congr h, modeStage_withClassTable, echoStage_withClassTable]
  · refine .inr ⟨ho, p, q, hp, hq, ?_⟩
    rw [State.setOffsetWords_withClassTable, modeStage_congr h, modeStage_withClassTable,
      echoStage_withClassTable]

/-- `BUILD` for a recognised device keeps the classification: put back the one that stands there, and the answer is
the same. -/
theorem execBuild_classTable (var : BitVec 2) (hs : s.classify s.devid.value = some v)
    (hb : execBuild var s = .next t) : t.classTable = s.classTable := by
  have hback : execBuild var s = .next (t.withClassTable s.classTable) :=
    execBuild_withClassTable (table := s.classTable) var hs hs rfl hb
  rw [hb, Host.Outcome.next.injEq] at hback
  rw [hback, State.withClassTable_classTable]

/-- Two classifications that agree on whether the device is modern give the same `BUILD`. -/
theorem execBuild_withClassTable_iff (var : BitVec 2) (hs : s.classify s.devid.value = some v)
    (hw : (s.withClassTable table).classify s.devid.value = some w)
    (h : isModern v = isModern w) :
    execBuild var s = .next t ↔
      execBuild var (s.withClassTable table) = .next (t.withClassTable table)
        ∧ t.classTable = s.classTable := by
  constructor
  · intro hb
    exact ⟨execBuild_withClassTable var hs hw h hb, execBuild_classTable var hs hb⟩
  · rintro ⟨hb, ht⟩
    have hback := execBuild_withClassTable (table := s.classTable) var hw hs h.symm hb
    rwa [State.withClassTable_withClassTable, State.withClassTable_withClassTable,
      State.withClassTable_self, ← ht, State.withClassTable_self] at hback

/-- Settles O52: both families are modern, so the classifications agree on what `BUILD` asks of them. -/
theorem modernFamiliesIdentical : Obligations.ModernFamiliesIdentical := by
  intro var s t table hA hB
  rw [exec_build, exec_build]
  exact execBuild_withClassTable_iff var hA hB rfl

end Sys2Proof.Machine
end

section
/-! PROOF. One access of the host: the request it makes, the step that serves it, and what a reset leaves. -/

namespace Sys2Proof.Machine

variable {s t : State} {i : Instr} {e : HostEvent} {rest : List HostEvent}

/-! ### One step -/

/-- The state with other accesses still to serve. -/
def State.withPending (s : State) (rest : List HostEvent) : State := { s with pending := rest }

@[simp] theorem State.withPending_output (r : OutReg) : (s.withPending rest).output r = s.output r := by
  cases r <;> rfl

theorem step_of_idle (h : s.pending = []) : step s = .next s := by rw [step, h]

theorem step_of_pending (h : s.pending = e :: rest) :
    step s = serve (request e) (s.withPending rest) := by
  rw [step, h]; rfl

/-- A step that answers a state is idle, or serves the first pending access (R45). -/
theorem step_next (h : step s = .next t) :
    (s.pending = [] ∧ t = s) ∨
      ∃ e rest, s.pending = e :: rest ∧ serve (request e) (s.withPending rest) = .next t := by
  cases hp : s.pending with
  | nil =>
    rw [step_of_idle hp] at h
    exact .inl ⟨rfl, (Host.Outcome.next.inj h).symm⟩
  | cons e rest =>
    rw [step_of_pending hp] at h
    exact .inr ⟨e, rest, rfl, h⟩

/-! ### Register numbers and requests -/

theorem ofNumber_number (r : RegName) : RegName.ofNumber r.number = some r := by
  cases r with
  | cmd => rfl
  | inp r => cases r with
    | coef k | preoffIn k | postoffIn k | codeIn k => revert k; decide
    | _ => rfl
  | out r => cases r with
    | cscCoeff k | cscPreoff k | cscPostoff k => revert k; decide
    | _ => rfl

/-- The unused numbers (R44, U7). -/
theorem ofNumber_unused {n : Nat} (h : n = 0x1F ∨ 0x2F ≤ n) : RegName.ofNumber n = none := by
  rcases h with rfl | h
  · rfl
  · simp (disch := omega) only [RegName.ofNumber, dif_neg, if_neg]

theorem request_write_cmd (w : CommandWord) :
    request (.write 0x1E w.toNat) = .command w (decode w) := by
  show commandRequest w.toNat = _
  rw [commandRequest, decodeValue, if_pos w.isLt, BitVec.ofNat_toNat, BitVec.setWidth_eq]

theorem request_write_cmd_wide {v : Nat} (h : 2 ^ 5 ≤ v) :
    request (.write 0x1E v) = .refuse .writeWiderThanRegister := by
  show commandRequest v = _
  rw [commandRequest, decodeValue, if_neg (Nat.not_lt.mpr h)]

theorem request_write_wide {r : InReg} {v : Nat} (h : 2 ^ r.width ≤ v) :
    request (.write (RegName.inp r).number v) = .refuse .writeWiderThanRegister := by
  rw [request, writeRequest, ofNumber_number]
  exact if_neg (Nat.not_lt.mpr h)

theorem request_write_output (r : OutReg) (v : Nat) :
    request (.write (RegName.out r).number v) = .refuse .hostWriteToOutput := by
  rw [request, writeRequest, ofNumber_number]

theorem request_write_unused {n : Nat} (h : n = 0x1F ∨ 0x2F ≤ n) (v : Nat) :
    request (.write n v) = .refuse .unusedRegister := by
  rw [request, writeRequest, ofNumber_unused h]

theorem request_read_unused {n : Nat} (h : n = 0x1F ∨ 0x2F ≤ n) :
    request (.read n) = .refuse .unusedRegister := by
  rw [request, readRequest, ofNumber_unused h]

theorem step_of_refused {why : Refusal} (h : s.pending = e :: rest)
    (hq : request e = .refuse why) : step s = .refused why := by
  rw [step_of_pending h, hq, serve]

/-- A step that serves a command write (R24, R45). -/
theorem step_of_command {w : CommandWord} (h : s.pending = .write 0x1E w.toNat :: rest) :
    step s = exec (decode w) ((s.withPending rest).latchCommand w) := by
  rw [step_of_pending h, request_write_cmd, serve]

/-! ### Commands -/

theorem decode_encode (i : Instr) : decode (encode i) = i := by
  cases i with
  | bitrev v | enco v | build v | reservedOp5 v => revert v; decide
  | enccM fam | packM fam => cases fam <;> rfl
  | reservedOp67 o v => revert o v; decide
  | _ => rfl

theorem exec_of_reserved (h : i.wellFormed = false) : exec i s = .refused .reservedCommand := by
  cases i with
  | reservedEncc0 | reservedPack0 | reservedOp5 | reservedOp67 => rfl
  | _ => cases h

/-- The reserved words (R62). -/
theorem decode_reserved : ∀ w : CommandWord, w = 0x04 ∨ w = 0x0C ∨ 0x14 ≤ w.toNat →
    (decode w).wellFormed = false := by
  decide

/-- Settles O3. -/
theorem stepRunsDecodedCommand : Obligations.StepRunsDecodedCommand := by
  refine ⟨fun s w rest h => step_of_command h, fun s i rest h => ?_⟩
  rw [step_of_command h, decode_encode]
  rfl

/-- Settles O9. -/
theorem forbiddenAccessesRefused : Obligations.ForbiddenAccessesRefused := by
  intro s rest
  refine ⟨fun r v h => step_of_refused h (request_write_output r v),
    fun n v hn h => step_of_refused h (request_write_unused hn v),
    fun n hn h => step_of_refused h (request_read_unused hn),
    fun r v hv h => step_of_refused h (request_write_wide hv),
    fun v hv h => step_of_refused h (request_write_cmd_wide hv), fun v hv h => ?_⟩
  obtain ⟨w, rfl⟩ : ∃ w : CommandWord, v = w.toNat :=
    ⟨BitVec.ofNat 5 v, by rw [BitVec.toNat_ofNat, Nat.mod_eq_of_lt (by omega)]⟩
  rw [step_of_command h]
  refine exec_of_reserved (decode_reserved w ?_)
  rcases hv with hv | hv | hv
  · exact .inl (BitVec.eq_of_toNat_eq hv)
  · exact .inr (.inl (BitVec.eq_of_toNat_eq hv))
  · exact .inr (.inr hv.1)

/-- Settles O10. -/
theorem idleBlockKeepsState : Obligations.IdleBlockKeepsState := fun _ h => step_of_idle h

/-! ### Reset -/

theorem State.resetBlock_written (s : State) (r : RegName) : (s.resetBlock.reg r).written = false := by
  rw [State.resetBlock_reg, unwritten_written]

theorem State.reset_written (r : RegName) : (State.reset.reg r).written = false := by
  rw [State.reset, State.resetWith_reg, unwritten_written]

/-- Settles O12. -/
theorem resetLeavesRegistersUnwritten : Obligations.ResetLeavesRegistersUnwritten :=
  ⟨State.reset_written, rfl, fun s rest h =>
    ⟨(s.withPending rest).resetBlock, step_of_pending h, State.resetBlock_written _, rfl, rfl⟩⟩

theorem encodeOpf_reset {n : Nat} (enc : FloatVal → BitVec n) :
    encodeOpf enc State.reset = .refused .unwrittenInput :=
  (encodeOpf_refused enc).mpr (.inl ⟨State.reset_written (.inp .opf), rfl⟩)

theorem packCodeIn_reset (layout : Vector Code16 9 → Vector Word 6) :
    packCodeIn layout State.reset = .refused .unwrittenInput := by
  refine (packCodeIn_refused layout).mpr ⟨Bool.eq_false_iff.mpr fun h => ?_, rfl⟩
  have hzero := (allWritten_iff _).mp h 0
  exact Bool.false_ne_true ((State.reset_written (.inp (.codeIn 0))).symm.trans hzero)

/-- Settles O13: each command finds the first input register that it reads unwritten. -/
theorem commandsRefusedAfterReset : Obligations.CommandsRefusedAfterReset := by
  intro i hi
  cases i with
  | bitrev var => exact (execBitrev_refused var).mpr (.inl ⟨rfl, rfl⟩)
  | enccL => exact encodeOpf_reset enc12
  | enccM fam => exact encodeOpf_reset enc16
  | enco var => exact encodeOpf_reset enc13
  | packL => exact packCodeIn_reset packL
  | packM fam => exact packCodeIn_reset packM
  | build var => exact (execBuild_refused var).mpr (.inl ⟨rfl, rfl⟩)
  | reservedEncc0 | reservedPack0 | reservedOp5 | reservedOp67 => cases hi

end Sys2Proof.Machine
end

section
/-! PROOF. What a completed command does, said once. It is a list of writes of whole groups of output registers.
The list depends on the command, the classification and the input registers the command reads (R28), and its
groups are those of the table of R152 and R119 (R23). The frame of a command, its dependence on its reads and the
invariant of the output registers are read off the list. -/

namespace Sys2Proof.Machine

variable {s s' t : State} {i : Instr} {v : Variant}

/-! ### Writes of the output registers -/

/-- One write of a group of output registers, as an operation makes it: the whole group at once. -/
inductive OutputWrite where
  | res (w : Word)
  | coeff (r : Vector Word 6)
  | offsets (p q : Vector Word 3)
  | mode (w : Word)
  | echo (w : Word)

/-- The write, made by the model's own setter of the group. -/
def OutputWrite.apply (s : State) : OutputWrite → State
  | .res w => s.setRes w
  | .coeff r => s.setCoeffWords r
  | .offsets p q => s.setOffsetWords p q
  | .mode w => s.setModeWord w
  | .echo w => s.setValidOut w

/-- The registers of the group. -/
def OutputWrite.regs : OutputWrite → List OutReg
  | .res _ => [.res]
  | .coeff _ => coeffWordRegs
  | .offsets _ _ => offsetWordRegs
  | .mode _ => [.cscMode]
  | .echo _ => [.validOut]

/-- The writes of a list, the first one first. -/
def State.applyAll (s : State) (ws : List OutputWrite) : State := ws.foldl OutputWrite.apply s

@[simp] theorem State.applyAll_nil : s.applyAll [] = s := rfl

@[simp] theorem State.applyAll_cons (w : OutputWrite) (ws : List OutputWrite) :
    s.applyAll (w :: ws) = (OutputWrite.apply s w).applyAll ws := rfl

@[simp] theorem State.applyAll_append (ws ws' : List OutputWrite) :
    s.applyAll (ws ++ ws') = (s.applyAll ws).applyAll ws' := List.foldl_append

@[simp] theorem cscCoeff_mem_coeffWordRegs (k : Fin 6) : .cscCoeff k ∈ coeffWordRegs := by
  simp [coeffWordRegs]

@[simp] theorem cscPreoff_mem_offsetWordRegs (j : Fin 3) : .cscPreoff j ∈ offsetWordRegs := by
  simp [offsetWordRegs]

@[simp] theorem cscPostoff_mem_offsetWordRegs (j : Fin 3) : .cscPostoff j ∈ offsetWordRegs := by
  simp [offsetWordRegs]

/-! A write reaches its group alone, and what it puts there does not depend on the state. -/

theorem OutputWrite.apply_output_of_not_mem (s : State) {w : OutputWrite} {r : OutReg}
    (h : r ∉ w.regs) : (w.apply s).output r = s.output r := by
  cases w with
  | res => rw [apply, State.setRes_output, if_neg (by simpa [regs] using h)]
  | coeff => rw [apply, State.setCoeffWords_output]; cases r <;> simp_all [regs]
  | offsets => rw [apply, State.setOffsetWords_output]; cases r <;> simp_all [regs]
  | mode => rw [apply, State.setModeWord_output, if_neg (by simpa [regs] using h)]
  | echo => rw [apply, State.setValidOut_output, if_neg (by simpa [regs] using h)]

theorem OutputWrite.apply_output_of_mem {w : OutputWrite} {r : OutReg} (h : r ∈ w.regs) :
    ∃ x, ∀ s : State, (w.apply s).output r = Reg.ofWrite x := by
  cases w with
  | res x => exact ⟨x, fun s => by rw [apply, State.setRes_output, if_pos (by simpa [regs] using h)]⟩
  | coeff words =>
    obtain ⟨k, -, rfl⟩ := List.mem_map.mp h
    exact ⟨words[k], fun s => by rw [apply, State.setCoeffWords_output]⟩
  | offsets p q =>
    rcases List.mem_append.mp h with h | h <;> obtain ⟨j, -, rfl⟩ := List.mem_map.mp h
    · exact ⟨p[j], fun s => by rw [apply, State.setOffsetWords_output]⟩
    · exact ⟨q[j], fun s => by rw [apply, State.setOffsetWords_output]⟩
  | mode x =>
    exact ⟨x, fun s => by rw [apply, State.setModeWord_output, if_pos (by simpa [regs] using h)]⟩
  | echo x =>
    exact ⟨x, fun s => by rw [apply, State.setValidOut_output, if_pos (by simpa [regs] using h)]⟩

theorem State.applyAll_output_of_not_mem {ws : List OutputWrite} {r : OutReg}
    (h : r ∉ ws.flatMap OutputWrite.regs) : (s.applyAll ws).output r = s.output r := by
  induction ws generalizing s with
  | nil => rfl
  | cons w ws ih =>
    rw [List.flatMap_cons, List.mem_append, not_or] at h
    rw [applyAll_cons, ih h.2, OutputWrite.apply_output_of_not_mem s h.1]

theorem State.applyAll_output_of_mem {ws : List OutputWrite} {r : OutReg}
    (h : r ∈ ws.flatMap OutputWrite.regs) :
    ∃ x, ∀ s : State, (s.applyAll ws).output r = Reg.ofWrite x := by
  induction ws with
  | nil => cases h
  | cons w ws ih =>
    simp only [applyAll_cons]
    by_cases hr : r ∈ ws.flatMap OutputWrite.regs
    · obtain ⟨x, hx⟩ := ih hr
      exact ⟨x, fun s => hx _⟩
    · rw [List.flatMap_cons, List.mem_append, or_iff_left hr] at h
      obtain ⟨x, hx⟩ := OutputWrite.apply_output_of_mem h
      exact ⟨x, fun s => by rw [applyAll_output_of_not_mem hr, hx]⟩

/-- Everything a write of output registers leaves alone: inputs, `CMD`, and what is the host's (R23). -/
structure SameButOutputs (s t : State) : Prop where
  input : ∀ r : InReg, t.input r = s.input r
  cmd : t.cmd = s.cmd
  classTable : t.classTable = s.classTable
  pending : t.pending = s.pending
  answers : t.answers = s.answers
  freeCount : t.freeCount = s.freeCount

theorem OutputWrite.apply_same (s : State) (w : OutputWrite) : SameButOutputs s (w.apply s) := by
  cases w <;> constructor <;> simp [apply]

theorem State.applyAll_same (s : State) (ws : List OutputWrite) :
    SameButOutputs s (s.applyAll ws) := by
  induction ws generalizing s with
  | nil => constructor <;> simp
  | cons w ws ih =>
    obtain ⟨hi, hc, ht, hp, ha, hf⟩ := ih (w.apply s)
    obtain ⟨hi', hc', ht', hp', ha', hf'⟩ := w.apply_same s
    exact ⟨fun r => (hi r).trans (hi' r), hc.trans hc', ht.trans ht', hp.trans hp', ha.trans ha',
      hf.trans hf'⟩

/-! ### States that agree on what a command reads -/

/-- `s'` agrees with `s` on the input registers the command reads in `s`, and on the classification (R28). -/
structure AgreeOnReads (i : Instr) (s s' : State) : Prop where
  input : ∀ r ∈ commandReads i s, s'.input r = s.input r
  classTable : s'.classTable = s.classTable

theorem AgreeOnReads.refl (i : Instr) (s : State) : AgreeOnReads i s s := ⟨fun _ _ => rfl, rfl⟩

theorem widen_injective {n : Nat} (hn : n ≤ 32) {a b : Reg n} (h : widen a = widen b) : a = b := by
  obtain ⟨x, m⟩ := a
  obtain ⟨y, k⟩ := b
  obtain ⟨hv, rfl⟩ := Reg.mk.inj h
  have hxy : x.toNat = y.toNat := by
    simpa only [BitVec.toNat_setWidth_of_le hn] using congrArg BitVec.toNat hv
  rw [BitVec.eq_of_toNat_eq hxy]

/-- The variant of the table of R119 is the one `BUILD` computes (R111). -/
theorem State.variant_congr (hd : s'.devid = s.devid) (ht : s'.classTable = s.classTable) :
    s'.variant = s.variant := by
  rw [variant, classify, hd, ht]; rfl

/-- What agreement on the reads of `BUILD` says (R119), the gates of its stages being those of the variant. -/
structure BuildReadsAgree (v : Variant) (s s' : State) : Prop where
  devid : s'.devid = s.devid
  validIn : s'.validIn = s.validIn
  classTable : s'.classTable = s.classTable
  coef : s'.coef = s.coef
  preoffIn : offsetStageRuns v s = true → s'.preoffIn = s.preoffIn
  postoffIn : offsetStageRuns v s = true → s'.postoffIn = s.postoffIn
  modeIn : modeStageRuns v s = true → s'.modeIn = s.modeIn

/-! The tables of R119 by variant, in the terms of the stages. -/

theorem buildUsesMode_of_variant (hv : s.variant = some v) : buildUsesMode s = modeStageRuns v s := by
  unfold buildUsesMode modeStageRuns
  rw [hv]
  cases v <;> rfl

theorem buildFloatReads_of_variant (hv : s.variant = some v) :
    buildFloatReads s = coefRegs ++ if offsetStageRuns v s then offsetInRegs else [] := by
  unfold buildFloatReads offsetStageRuns
  rw [hv]
  cases v <;> simp [isModern]

theorem buildWrites_of_variant (hv : s.variant = some v) :
    buildWrites s = coeffWordRegs ++ (if offsetStageRuns v s then offsetWordRegs else [])
      ++ (if modeStageRuns v s then [.cscMode] else []) ++ [.validOut] := by
  rw [buildWrites, buildUsesMode_of_variant hv, hv]
  cases v <;> simp [offsetStageRuns, isModern]

theorem buildWrites_of_unrecognised (hv : s.variant = none) : buildWrites s = [.validOut] := by
  simp [buildWrites, buildUsesMode, hv]

theorem AgreeOnReads.buildReadsAgree {var : BitVec 2} (h : AgreeOnReads (.build var) s s')
    (hv : s.variant = some v) : BuildReadsAgree v s s' := by
  obtain ⟨hin, ht⟩ := h
  simp only [commandReads, plainReads, floatReads, buildFloatReads_of_variant hv,
    buildUsesMode_of_variant hv, List.mem_append] at hin
  refine ⟨hin .devid (by simp), hin .validIn (by simp), ht, ?_, fun ho => ?_, fun ho => ?_,
    fun hm => hin .modeIn (by simp [hm])⟩
  · exact Vector.ext fun k hk => hin (.coef ⟨k, hk⟩) (by simp [coefRegs])
  · exact Vector.ext fun k hk => hin (.preoffIn ⟨k, hk⟩) (by simp [ho, offsetInRegs])
  · exact Vector.ext fun k hk => hin (.postoffIn ⟨k, hk⟩) (by simp [ho, offsetInRegs])

theorem AgreeOnReads.commandWrites_eq (h : AgreeOnReads i s s') :
    commandWrites i s' = commandWrites i s := by
  obtain ⟨hin, ht⟩ := h
  cases i with
  | build var =>
    have hd : s'.devid = s.devid := hin .devid (by simp [commandReads, plainReads])
    have hi : s'.validIn = s.validIn := hin .validIn (by simp [commandReads, plainReads])
    have hv : s'.variant = s.variant := State.variant_congr hd ht
    have ho : offsetsValid s' = offsetsValid s := by rw [offsetsValid, hi, ← offsetsValid]
    have hm : buildUsesMode s' = buildUsesMode s := by
      rw [buildUsesMode, hv, modeValid, hi, ← modeValid, ← buildUsesMode]
    rw [commandWrites, buildWrites, hv, ho, hm, ← buildWrites]
    rfl
  | _ => rfl

/-! ### The writes of `BUILD` -/

/-- The write of the offset stage (R113). -/
def OffsetWrites (v : Variant) (s : State) (ws : List OutputWrite) : Prop :=
  (offsetStageRuns v s = false ∧ ws = []) ∨
    (offsetStageRuns v s = true ∧
      ∃ p q, offsetWords s.preoffIn = some p ∧ offsetWords s.postoffIn = some q ∧
        ws = [.offsets p q])

/-- The write of the mode stage (R114). -/
def modeWrites (v : Variant) (s : State) : List OutputWrite :=
  if modeStageRuns v s then [.mode (modeCode s.modeIn.value)] else []

/-- The writes of `BUILD` for a recognised variant, in the order of the stages (R110), given the words of the
coefficient stage and the writes of the offset stage. -/
def buildWriteList (v : Variant) (s : State) (r : Vector Word 6) (ws : List OutputWrite) :
    List OutputWrite :=
  .coeff r :: (ws ++ modeWrites v s ++ [.echo s.validIn.value])

theorem modeStage_eq_applyAll : modeStage v s = s.applyAll (modeWrites v s) := by
  unfold modeStage modeWrites
  split <;> rfl

theorem echoStage_eq_applyAll : echoStage s = s.applyAll [.echo s.validIn.value] := rfl

theorem modeWrites_congr (hi : t.validIn = s.validIn)
    (hm : modeStageRuns v s = true → t.modeIn = s.modeIn) : modeWrites v t = modeWrites v s := by
  have hg : modeStageRuns v t = modeStageRuns v s := by
    rw [modeStageRuns, modeValid, hi, ← modeValid, ← modeStageRuns]
  unfold modeWrites
  rw [hg]
  split
  next h => rw [hm h]
  next => rfl

/-- No write of an output register changes what the mode stage and the echo write. -/
theorem echoStage_modeStage_applyAll (ws : List OutputWrite) :
    echoStage (modeStage v (s.applyAll ws)) =
      s.applyAll (ws ++ modeWrites v s ++ [.echo s.validIn.value]) := by
  have hws := (s.applyAll_same ws).input
  have hms := ((s.applyAll ws).applyAll_same (modeWrites v s)).input
  rw [modeStage_eq_applyAll, modeWrites_congr (hws .validIn) (fun _ => hws .modeIn),
    echoStage_eq_applyAll,
    show ((s.applyAll ws).applyAll (modeWrites v s)).validIn = s.validIn from
      (hms .validIn).trans (hws .validIn),
    State.applyAll_append, State.applyAll_append]

/-- `BUILD` for a recognised variant, whole, as its list of writes (R110). -/
theorem execBuild_writes (var : BitVec 2) (hd : s.devid.written = true)
    (hi : s.validIn.written = true) (hv : s.variant = some v) :
    execBuild var s = .next t ↔
      buildInputsWritten v s = true ∧
        ∃ r ws, coefficientWords v s = some r ∧ OffsetWrites v s ws ∧
          t = s.applyAll (buildWriteList v s r ws) := by
  have hlist (r : Vector Word 6) (ws : List OutputWrite) :
      s.applyAll (buildWriteList v s r ws) =
        echoStage (modeStage v ((s.setCoeffWords r).applyAll ws)) :=
    (echoStage_modeStage_applyAll (.coeff r :: ws)).symm
  rw [execBuild_recognised var hd hi hv]
  simp only [hlist]
  refine and_congr_right fun _ => exists_congr fun r => ?_
  constructor
  · rintro ⟨hr, ⟨ho, rfl⟩ | ⟨ho, p, q, hp, hq, rfl⟩⟩
    · exact ⟨[], hr, .inl ⟨ho, rfl⟩, rfl⟩
    · exact ⟨_, hr, .inr ⟨ho, p, q, hp, hq, rfl⟩, rfl⟩
  · rintro ⟨ws, hr, ⟨ho, rfl⟩ | ⟨ho, p, q, hp, hq, rfl⟩, rfl⟩
    · exact ⟨hr, .inl ⟨ho, rfl⟩⟩
    · exact ⟨hr, .inr ⟨ho, p, q, hp, hq, rfl⟩⟩

/-! What `BUILD` reads decides what it writes (R119, R121). -/

section
variable (h : BuildReadsAgree v s s')
include h

theorem BuildReadsAgree.offsetStageRuns_eq : offsetStageRuns v s' = offsetStageRuns v s := by
  rw [offsetStageRuns, offsetsValid, h.validIn, ← offsetsValid, ← offsetStageRuns]

theorem BuildReadsAgree.modeStageRuns_eq : modeStageRuns v s' = modeStageRuns v s := by
  rw [modeStageRuns, modeValid, h.validIn, ← modeValid, ← modeStageRuns]

theorem BuildReadsAgree.buildInputsWritten (hb : buildInputsWritten v s = true) :
    buildInputsWritten v s' = true := by
  obtain ⟨hc, ho, hm⟩ := buildInputsWritten_iff.mp hb
  rw [buildInputsWritten_iff, h.offsetStageRuns_eq, h.modeStageRuns_eq, h.coef]
  refine ⟨hc, fun hr => ?_, fun hr => ?_⟩
  · rw [h.preoffIn hr, h.postoffIn hr]
    exact ho hr
  · rw [h.modeIn hr]
    exact hm hr

theorem BuildReadsAgree.coefficientWords_eq : coefficientWords v s' = coefficientWords v s := by
  unfold coefficientWords
  rw [h.coef]

theorem BuildReadsAgree.offsetWrites {ws : List OutputWrite} (hw : OffsetWrites v s ws) :
    OffsetWrites v s' ws := by
  rw [OffsetWrites, h.offsetStageRuns_eq]
  refine hw.imp_right fun ⟨hr, hpq⟩ => ⟨hr, ?_⟩
  rwa [h.preoffIn hr, h.postoffIn hr]

theorem BuildReadsAgree.buildWriteList_eq (r : Vector Word 6) (ws : List OutputWrite) :
    buildWriteList v s' r ws = buildWriteList v s r ws := by
  rw [buildWriteList, modeWrites_congr h.validIn h.modeIn, h.validIn, ← buildWriteList]

end

/-! ### The values a write may have -/

/-- The half of each row's second word that a layout leaves zero (R56, R57), the same half in all three rows. -/
def LayoutHalfZero (r : Vector Word 6) : Prop :=
  (r[1].toNat < 2 ^ 16 ∧ r[3].toNat < 2 ^ 16 ∧ r[5].toNat < 2 ^ 16)
    ∨ (r[1].toNat % 2 ^ 16 = 0 ∧ r[3].toNat % 2 ^ 16 = 0 ∧ r[5].toNat % 2 ^ 16 = 0)

/-- What the invariant of the output registers asks of the words written. -/
def OutputWrite.Legal : OutputWrite → Prop
  | .res w => w.toNat < 2 ^ 16
  | .coeff r => LayoutHalfZero r
  | .offsets p q => ∀ j : Fin 3, p[j].toNat < 2 ^ 13 ∧ q[j].toNat < 2 ^ 13
  | .mode w => w = 0 ∨ w = 2
  | .echo _ => True

theorem packL_halfZero (codes : Vector Code16 9) : LayoutHalfZero (packL codes) := by
  refine .inl ⟨?_, ?_, ?_⟩ <;> exact (lowWord_toNat _).trans_lt (BitVec.isLt _)

theorem packM_halfZero (codes : Vector Code16 9) : LayoutHalfZero (packM codes) := by
  refine .inr ⟨?_, ?_, ?_⟩ <;>
    exact (congrArg (· % 2 ^ 16) (highWord_toNat _)).trans (Nat.mul_mod_left _ _)

theorem coefficientWords_halfZero {r : Vector Word 6} (h : coefficientWords v s = some r) :
    LayoutHalfZero r := by
  cases v with
  | legacyFamily => obtain ⟨_, -, rfl⟩ := Option.map_eq_some_iff.mp h; exact packL_halfZero _
  | modernFamilyA => obtain ⟨_, -, rfl⟩ := Option.map_eq_some_iff.mp h; exact packM_halfZero _
  | modernFamilyB => obtain ⟨_, -, rfl⟩ := Option.map_eq_some_iff.mp h; exact packM_halfZero _

theorem setWidth_toNat_lt {n : Nat} (w : BitVec n) : (w.setWidth 32).toNat < 2 ^ n := by
  rw [BitVec.toNat_setWidth]
  exact (Nat.mod_le _ _).trans_lt w.isLt

theorem offsetWords_lt {regs : Vector (Reg 32) 3} {p : Vector Word 3}
    (h : offsetWords regs = some p) (j : Fin 3) : p[j].toNat < 2 ^ 13 := by
  obtain ⟨x, -, hx⟩ := Option.map_eq_some_iff.mp ((encodeAll_eq_some _ _ _).mp h j)
  rw [← hx]
  exact setWidth_toNat_lt (enc13 x)

theorem modeCode_legal (m : Word) : modeCode m = 0 ∨ modeCode m = 2 := by
  unfold modeCode
  split
  · exact .inr rfl
  · exact .inl rfl

theorem OffsetWrites.legal {ws : List OutputWrite} (h : OffsetWrites v s ws) :
    ∀ w ∈ ws, w.Legal := by
  rcases h with ⟨-, rfl⟩ | ⟨-, p, q, hp, hq, rfl⟩
  · exact List.forall_mem_nil _
  · exact List.forall_mem_singleton.mpr fun j => ⟨offsetWords_lt hp j, offsetWords_lt hq j⟩

theorem modeWrites_legal : ∀ w ∈ modeWrites v s, w.Legal := by
  unfold modeWrites
  split
  · exact List.forall_mem_singleton.mpr (modeCode_legal _)
  · exact List.forall_mem_nil _

/-! ### A completed command -/

/-- The list `ws` is what the command writes in `s`: its groups are those of the table of R152 and R119, its words
are legal, and in every state that agrees on the reads the command completes and makes these writes. -/
structure Writes (i : Instr) (s : State) (ws : List OutputWrite) : Prop where
  regs : commandWrites i s = ws.flatMap OutputWrite.regs
  legal : ∀ w ∈ ws, w.Legal
  run : ∀ s', AgreeOnReads i s s' → exec i s' = .next (s'.applyAll ws)

/-- A unit encoder, run by a command that reads `OPF` and writes `RES`. -/
theorem encodeOpf_writes {n : Nat} (hn : n ≤ 16) (enc : FloatVal → BitVec n)
    (hreads : commandReads i s = [.opf]) (hwrites : commandWrites i s = [.res])
    (hexec : ∀ u, exec i u = encodeOpf enc u) (h : exec i s = .next t) :
    ∃ ws, Writes i s ws := by
  rw [hexec] at h
  obtain ⟨hw, x, hx, -⟩ := (encodeOpf_next enc).mp h
  refine ⟨[.res ((enc x).setWidth 32)], hwrites, ?_, fun s' ha => ?_⟩
  · exact List.forall_mem_singleton.mpr
      ((setWidth_toNat_lt (enc x)).trans_le (Nat.pow_le_pow_right (by norm_num) hn))
  · have hopf : s'.opf = s.opf := ha.input .opf (by simp [hreads])
    rw [hexec]
    refine (encodeOpf_next enc).mpr ⟨?_, x, ?_, rfl⟩
    · rwa [hopf]
    · rwa [hopf]

/-- A layout, run by a command that reads the codes and writes the six words. -/
theorem packCodeIn_writes {layout : Vector Code16 9 → Vector Word 6}
    (hlayout : ∀ codes, LayoutHalfZero (layout codes))
    (hreads : commandReads i s = codeInRegs) (hwrites : commandWrites i s = coeffWordRegs)
    (hexec : ∀ u, exec i u = packCodeIn layout u) (h : exec i s = .next t) :
    ∃ ws, Writes i s ws := by
  rw [hexec] at h
  obtain ⟨hw, -⟩ := (packCodeIn_next layout).mp h
  refine ⟨[.coeff (layout (Vector.ofFn fun k => s.codeIn[k].value))], ?_, ?_, fun s' ha => ?_⟩
  · rw [hwrites, List.flatMap_singleton]; rfl
  · exact List.forall_mem_singleton.mpr (hlayout _)
  · have hcodes : s'.codeIn = s.codeIn := Vector.ext fun k hk =>
      widen_injective (by norm_num) (ha.input (.codeIn ⟨k, hk⟩) (by simp [hreads, codeInRegs]))
    rw [hexec, packCodeIn_next, hcodes]
    exact ⟨hw, rfl⟩

theorem execBitrev_writes {var : BitVec 2} (h : execBitrev var s = .next t) :
    ∃ ws, Writes (.bitrev var) s ws := by
  obtain ⟨hv, hn, hle, -⟩ := (execBitrev_next var).mp h
  refine ⟨[.res (BitVec.ofNat 32 (bitrev s.opv.value.toNat s.opn.value.toNat))], rfl, ?_,
    fun s' ha => ?_⟩
  · have hlt := bitrev_lt s.opv.value.toNat s.opn.value.toNat
    exact List.forall_mem_singleton.mpr (((BitVec.toNat_ofNat _ _).trans_le (Nat.mod_le _ _)).trans_lt
      (hlt.trans_le (Nat.pow_le_pow_right (by norm_num) hle)))
  · have hopv : s'.opv = s.opv := ha.input .opv (by simp [commandReads, plainReads])
    have hopn : s'.opn = s.opn :=
      widen_injective (by norm_num) (ha.input .opn (by simp [commandReads, plainReads]))
    refine (execBitrev_next var).mpr ?_
    rw [hopv, hopn]
    exact ⟨hv, hn, hle, rfl⟩

theorem execBuild_writes_unrecognised {var : BitVec 2} (h : execBuild var s = .next t)
    (hv : s.variant = none) : ∃ ws, Writes (.build var) s ws := by
  obtain ⟨hd, hi, -⟩ := (execBuild_next var).mp h
  refine ⟨[.echo s.validIn.value], buildWrites_of_unrecognised hv,
    List.forall_mem_singleton.mpr trivial, fun s' ha => ?_⟩
  have hdevid : s'.devid = s.devid := ha.input .devid (by simp [commandReads, plainReads])
  have hvalid : s'.validIn = s.validIn := ha.input .validIn (by simp [commandReads, plainReads])
  refine (execBuild_next var).mpr ⟨by rwa [hdevid], by rwa [hvalid], .inl ⟨?_, ?_⟩⟩
  · exact (State.variant_congr hdevid ha.classTable).trans hv
  · rw [echoStage_eq_applyAll, hvalid]

theorem execBuild_writes_recognised {var : BitVec 2} (h : execBuild var s = .next t)
    (hv : s.variant = some v) : ∃ ws, Writes (.build var) s ws := by
  obtain ⟨hd, hi, -⟩ := (execBuild_next var).mp h
  obtain ⟨hin, r, ws, hr, hws, -⟩ := (execBuild_writes var hd hi hv).mp h
  refine ⟨buildWriteList v s r ws, ?_, ?_, fun s' ha => ?_⟩
  · have hoffs : ws.flatMap OutputWrite.regs =
        if offsetStageRuns v s then offsetWordRegs else [] := by
      rcases hws with ⟨ho, rfl⟩ | ⟨ho, p, q, -, -, rfl⟩ <;> simp [ho, OutputWrite.regs]
    have hmode : (modeWrites v s).flatMap OutputWrite.regs =
        if modeStageRuns v s then [.cscMode] else [] := by
      unfold modeWrites
      split <;> rfl
    simp [commandWrites, buildWrites_of_variant hv, buildWriteList, hoffs, hmode, OutputWrite.regs]
  · simp only [buildWriteList, List.forall_mem_cons, List.forall_mem_append]
    exact ⟨coefficientWords_halfZero hr, ⟨hws.legal, modeWrites_legal⟩, trivial, List.forall_mem_nil _⟩
  · have hb := ha.buildReadsAgree hv
    have hv' : s'.variant = some v := (State.variant_congr hb.devid hb.classTable).trans hv
    refine (execBuild_writes var ?_ ?_ hv').mpr
      ⟨hb.buildInputsWritten hin, r, ws, ?_, hb.offsetWrites hws, ?_⟩
    · rwa [hb.devid]
    · rwa [hb.validIn]
    · rwa [hb.coefficientWords_eq]
    · rw [hb.buildWriteList_eq]

/-- Whatever command completes, it makes a list of writes that its reads decide. -/
theorem exec_next_writes (h : exec i s = .next t) : ∃ ws, Writes i s ws ∧ t = s.applyAll ws := by
  have hws : ∃ ws, Writes i s ws := by
    cases i with
    | bitrev var => exact execBitrev_writes h
    | enccL => exact encodeOpf_writes (by norm_num) enc12 rfl rfl (fun _ => rfl) h
    | enccM fam => exact encodeOpf_writes (by norm_num) enc16 rfl rfl (fun _ => rfl) h
    | enco var => exact encodeOpf_writes (by norm_num) enc13 rfl rfl (fun _ => rfl) h
    | packL => exact packCodeIn_writes packL_halfZero (List.append_nil _) rfl (fun _ => rfl) h
    | packM fam => exact packCodeIn_writes packM_halfZero (List.append_nil _) rfl (fun _ => rfl) h
    | build var =>
      cases hv : s.variant with
      | none => exact execBuild_writes_unrecognised h hv
      | some v => exact execBuild_writes_recognised h hv
    | reservedEncc0 | reservedPack0 | reservedOp5 | reservedOp67 => cases h
  obtain ⟨ws, hws⟩ := hws
  exact ⟨ws, hws, Host.Outcome.next.inj (h.symm.trans (hws.run s (.refl i s)))⟩

/-- Settles O18: a write reaches its group alone, and the groups written are those of the table. -/
theorem commandFrame : Obligations.CommandFrame := by
  intro i s t h
  obtain ⟨ws, hws, rfl⟩ := exec_next_writes h
  obtain ⟨hin, hcmd, htable, hpending, hanswers, hcount⟩ := s.applyAll_same ws
  refine ⟨hin, fun r hr => ?_, fun r hr => ?_, hcmd, htable, hpending, hanswers, hcount⟩
  · rw [hws.regs] at hr
    exact State.applyAll_output_of_not_mem hr
  · rw [hws.regs] at hr
    obtain ⟨x, hx⟩ := State.applyAll_output_of_mem hr
    rw [hx s, ofWrite_written]

/-- Settles O19: the reads decide the list of writes, and the list decides the values written. -/
theorem commandDependsOnItsReadsOnly : Obligations.CommandDependsOnItsReadsOnly := by
  intro i s s' t h hin htable
  have ha : AgreeOnReads i s s' := ⟨hin, htable⟩
  obtain ⟨ws, hws, rfl⟩ := exec_next_writes h
  refine ⟨s'.applyAll ws, hws.run s' ha, ha.commandWrites_eq, fun r hr => ?_⟩
  rw [hws.regs] at hr
  obtain ⟨x, hx⟩ := State.applyAll_output_of_mem hr
  rw [hx s', hx s]

theorem exec_latchCommand_cmd {w : CommandWord} (h : exec i (s.latchCommand w) = .next t) :
    t.cmd = Reg.ofWrite w := by
  obtain ⟨-, -, -, hcmd, -⟩ := commandFrame i _ t h
  rw [hcmd, State.latchCommand_cmd]

/-- Settles O5: no command writes `CMD`, and a read of a written register answers its value. -/
theorem commandRegisterReadsBack : Obligations.CommandRegisterReadsBack := by
  refine ⟨fun s t w rest h ht => ?_, fun s w rest h hcmd => ?_⟩
  · rw [step_of_command h] at ht
    exact exec_latchCommand_cmd ht
  · refine ⟨(s.withPending rest).answerRead .cmd, step_of_pending h, ?_⟩
    have hreg : (s.withPending rest).reg .cmd = widen (Reg.ofWrite w) := congrArg widen hcmd
    rw [State.answerRead, hreg]
    exact ⟨rfl, rfl⟩

end Sys2Proof.Machine
end

section
/-! PROOF. The invariant of the output registers. Its values, and that each group is written as a whole, every
single legal write keeps; that offset words and a mode word stand only beside a block (R118) follows from the frame
of the command, by which groups it writes together. -/

namespace Sys2Proof.Machine

variable {s t : State} {i : Instr}

theorem allOrNone_append {m n w : Nat} {b : Bool} {x : Vector (Reg w) m} {y : Vector (Reg w) n}
    (hx : ∀ j : Fin m, x[j].written = b) (hy : ∀ j : Fin n, y[j].written = b) :
    allOrNone (x ++ y) := by
  have h (j : Fin (m + n)) : (x ++ y)[j].written = b := by
    simp only [Fin.getElem_fin, Vector.getElem_append]
    split
    next hj => exact hx ⟨j, hj⟩
    next hj => exact hy ⟨j - m, by omega⟩
  exact fun j k => (h j).trans (h k).symm

/-- The invariant speaks of the output registers alone. -/
theorem OutputsLegal.congr (h : ∀ r : OutReg, t.output r = s.output r) (hs : OutputsLegal s) :
    OutputsLegal t := by
  have hcoeff : t.cscCoeff = s.cscCoeff := Vector.ext fun k hk => h (.cscCoeff ⟨k, hk⟩)
  have hpre : t.cscPreoff = s.cscPreoff := Vector.ext fun k hk => h (.cscPreoff ⟨k, hk⟩)
  have hpost : t.cscPostoff = s.cscPostoff := Vector.ext fun k hk => h (.cscPostoff ⟨k, hk⟩)
  have hmode : t.cscMode = s.cscMode := h .cscMode
  have hres : t.res = s.res := h .res
  have hvalid : t.validOut = s.validOut := h .validOut
  simpa only [OutputsLegal, OutputFieldsLegal, CoeffLayoutLegal, BlockWhole, hcoeff, hpre, hpost,
    hmode, hres, hvalid] using hs

/-- With every output register unwritten there is nothing to ask (R33). -/
theorem outputsLegal_of_unwritten (h : ∀ r : OutReg, (s.output r).written = false) :
    OutputsLegal s := by
  have hno (r : OutReg) {P : Prop} : (s.output r).written = true → P := by simp [h r]
  refine ⟨⟨fun j => ⟨hno (.cscPreoff j), hno (.cscPostoff j)⟩, hno .cscMode, hno .res⟩, ?_, ?_, ?_,
    hno (.cscPreoff 0), hno .cscMode⟩
  · exact fun ⟨k, hk⟩ => hno (.cscCoeff k) hk
  · exact fun k l => (h (.cscCoeff k)).trans (h (.cscCoeff l)).symm
  · exact allOrNone_append (fun j => h (.cscPreoff j)) fun j => h (.cscPostoff j)

/-- The part of the invariant that every single legal write keeps: the values, and that each group is written as a
whole. -/
structure GroupsLegal (s : State) : Prop where
  fields : OutputFieldsLegal s
  layout : CoeffLayoutLegal s
  coeff : allOrNone s.cscCoeff
  offsets : allOrNone (s.cscPreoff ++ s.cscPostoff)

/-- The rest of the invariant: the register stands only beside coefficient words and a validity echo (R118). -/
def BesideBlock (r : OutReg) (s : State) : Prop :=
  (s.output r).written = true →
    (s.output (.cscCoeff 0)).written = true ∧ (s.output .validOut).written = true

theorem outputsLegal_iff :
    OutputsLegal s ↔ GroupsLegal s ∧ BesideBlock (.cscPreoff 0) s ∧ BesideBlock .cscMode s := by
  constructor
  · rintro ⟨hf, hl, hc, ho, hp, hm⟩
    exact ⟨⟨hf, hl, hc, ho⟩, hp, hm⟩
  · rintro ⟨⟨hf, hl, hc, ho⟩, hp, hm⟩
    exact ⟨hf, hl, hc, ho, hp, hm⟩

theorem OutputWrite.Legal.groupsLegal {w : OutputWrite} (hw : w.Legal) (hs : GroupsLegal s) :
    GroupsLegal (w.apply s) := by
  obtain ⟨⟨hoff, hmode, hres⟩, hl, hc, ho⟩ := hs
  cases w with
  | res x => exact ⟨⟨hoff, hmode, fun _ => hw⟩, hl, hc, ho⟩
  | coeff r =>
    refine ⟨⟨hoff, hmode, hres⟩, fun _ => ?_, fun j k => ?_, ho⟩
    · simpa [apply, Legal, LayoutHalfZero] using hw
    · simp [apply]
  | offsets p q =>
    refine ⟨⟨fun j => ?_, hmode, hres⟩, hl, hc, allOrNone_append (b := true) ?_ ?_⟩
    · simpa [apply] using hw j
    · simp [apply]
    · simp [apply]
  | mode x => exact ⟨⟨hoff, fun _ => hw, hres⟩, hl, hc, ho⟩
  | echo x => exact ⟨⟨hoff, hmode, hres⟩, hl, hc, ho⟩

theorem GroupsLegal.applyAll {ws : List OutputWrite} (hws : ∀ w ∈ ws, w.Legal)
    (hs : GroupsLegal s) : GroupsLegal (s.applyAll ws) := by
  induction ws generalizing s with
  | nil => exact hs
  | cons w ws ih =>
    obtain ⟨hw, hws⟩ := List.forall_mem_cons.mp hws
    exact ih hws (hw.groupsLegal hs)

/-- By the table of R119, a command that writes offset words or the mode word writes the coefficient words and the
echo too. -/
theorem commandWrites_beside {r : OutReg} (hr : r = .cscPreoff 0 ∨ r = .cscMode)
    (h : r ∈ commandWrites i s) :
    .cscCoeff 0 ∈ commandWrites i s ∧ .validOut ∈ commandWrites i s := by
  cases i with
  | build var =>
    rw [commandWrites] at h ⊢
    cases hv : s.variant with
    | none =>
      rw [buildWrites_of_unrecognised hv, List.mem_singleton] at h
      rcases hr with rfl | rfl <;> cases h
    | some v => simp [buildWrites_of_variant hv]
  | _ => rcases hr with rfl | rfl <;> simp [commandWrites, coeffWordRegs] at h

theorem exec_keeps_besideBlock {r : OutReg} (hr : r = .cscPreoff 0 ∨ r = .cscMode)
    (h : exec i s = .next t) (hs : BesideBlock r s) : BesideBlock r t := by
  obtain ⟨-, hkeep, hwrite, -⟩ := commandFrame i s t h
  intro ht
  by_cases hm : r ∈ commandWrites i s
  · obtain ⟨hc, hv⟩ := commandWrites_beside hr hm
    exact ⟨hwrite _ hc, hwrite _ hv⟩
  · have hmark (r' : OutReg) (h' : (s.output r').written = true) : (t.output r').written = true := by
      by_cases hm' : r' ∈ commandWrites i s
      · exact hwrite _ hm'
      · rwa [hkeep _ hm']
    rw [hkeep _ hm] at ht
    exact (hs ht).imp (hmark _) (hmark _)

theorem exec_keeps_outputsLegal (h : exec i s = .next t) (hs : OutputsLegal s) : OutputsLegal t := by
  obtain ⟨hg, hp, hm⟩ := outputsLegal_iff.mp hs
  obtain ⟨ws, hws, rfl⟩ := exec_next_writes h
  exact outputsLegal_iff.mpr ⟨hg.applyAll hws.legal, exec_keeps_besideBlock (.inl rfl) h hp,
    exec_keeps_besideBlock (.inr rfl) h hm⟩

/-- A reset leaves nothing written, and no access but a command write reaches an output register. -/
theorem serve_keeps_outputsLegal {q : Request} (h : serve q s = .next t) (hs : OutputsLegal s) :
    OutputsLegal t := by
  cases q with
  | store r v =>
    obtain rfl := Host.Outcome.next.inj h
    exact hs.congr (s.writeInput_output r v)
  | command w i => exact exec_keeps_outputsLegal h (hs.congr (s.latchCommand_output w))
  | load r =>
    obtain rfl := Host.Outcome.next.inj h
    exact hs.congr fun r' => s.answerRead_reg r (.out r')
  | reset =>
    obtain rfl := Host.Outcome.next.inj h
    exact outputsLegal_of_unwritten fun r => s.resetBlock_written (.out r)
  | refuse why => cases h

/-- Settles O15: a command writes whole groups with legal words, and every other access keeps the invariant. -/
theorem stepKeepsOutputInvariant : Obligations.StepKeepsOutputInvariant := by
  intro s t hs h
  rcases step_next h with ⟨-, rfl⟩ | ⟨e, rest, -, hserve⟩
  · exact hs
  · exact serve_keeps_outputsLegal hserve (hs.congr fun _ => State.withPending_output _)

/-- Settles O14. -/
theorem outputInvariantAtReset : Obligations.OutputInvariantAtReset :=
  outputsLegal_of_unwritten fun r => State.reset_written (.out r)

end Sys2Proof.Machine
end

section
/-! PROOF. The host's side of the block: the address map (R44), what a write and a read of the host do to the
registers (R42, R43), a command given twice (R43), and instances side by side (R48). -/

namespace Sys2Proof.Machine

variable {s t : State} {rest : List HostEvent}

/-! ### The address map -/

/-- Every number below 0x2F but 0x1F is that of a register (R44). -/
theorem ofNumber_used : ∀ n < 0x2F, n ≠ 0x1F →
    ∃ r, RegName.ofNumber n = some r ∧ r.number = n := by
  have hmap : ∀ n < 0x2F, n ≠ 0x1F → (RegName.ofNumber n).map RegName.number = some n := by decide
  exact fun n hn hne => Option.map_eq_some_iff.mp (hmap n hn hne)

theorem ofNumber_eq_none_iff {n : Nat} :
    RegName.ofNumber n = none ↔ n = 0x1F ∨ 0x2F ≤ n := by
  refine ⟨fun h => ?_, ofNumber_unused⟩
  by_contra hused
  obtain ⟨r, hr, -⟩ := ofNumber_used n (by omega) (by omega)
  rw [h] at hr
  cases hr

theorem ofNumber_eq_some_iff {n : Nat} {r : RegName} :
    RegName.ofNumber n = some r ↔ r.number = n := by
  refine ⟨fun h => ?_, fun h => h ▸ ofNumber_number r⟩
  have hused : ¬(n = 0x1F ∨ 0x2F ≤ n) := fun hn => by rw [ofNumber_unused hn] at h; cases h
  obtain ⟨r', hr', hn⟩ := ofNumber_used n (by omega) (by omega)
  rw [h, Option.some.injEq] at hr'
  rwa [hr']

/-- Settles O6. -/
theorem registerNumbersExact : Obligations.RegisterNumbersExact := by
  exact ⟨fun i => ⟨(Nat.zero_add _).symm, rfl⟩, fun j => ⟨rfl, rfl, rfl, rfl⟩, fun k => rfl,
    rfl, rfl, rfl, rfl, rfl, rfl, rfl, rfl, rfl, rfl, fun n r => ofNumber_eq_some_iff,
    fun n => ofNumber_eq_none_iff,
    fun n hn => ⟨request_read_unused hn, request_write_unused hn⟩⟩

/-! ### A host write -/

@[simp] theorem State.withPending_reg (r : RegName) : (s.withPending rest).reg r = s.reg r := by
  cases r with
  | cmd => rfl
  | inp r => cases r <;> rfl
  | out r => exact State.withPending_output r

@[simp] theorem State.writeInput_cmd (r : InReg) (v : Nat) : (s.writeInput r v).cmd = s.cmd := by
  cases r <;> rfl

@[simp] theorem State.writeInput_answers (r : InReg) (v : Nat) :
    (s.writeInput r v).answers = s.answers := by
  cases r <;> rfl

@[simp] theorem State.writeInput_freeCount (r : InReg) (v : Nat) :
    (s.writeInput r v).freeCount = s.freeCount := by
  cases r <;> rfl

/-- A value that fits a register is seen at the port as it was presented (R42). -/
theorem widen_ofWrite_ofNat {n v : Nat} (hn : n ≤ 32) (hv : v < 2 ^ n) :
    widen (Reg.ofWrite (BitVec.ofNat n v)) = Reg.ofWrite (BitVec.ofNat 32 v) := by
  rw [widen, ofWrite_value, ofWrite_written, BitVec.setWidth_ofNat_of_le_of_lt hn hv]
  rfl

theorem State.writeInput_input_same {r : InReg} {v : Nat} (hv : v < 2 ^ r.width) :
    (s.writeInput r v).input r = Reg.ofWrite (BitVec.ofNat 32 v) := by
  cases r with
  | coef k | preoffIn k | postoffIn k => exact Vector.getElem_set_self _
  | opn => exact widen_ofWrite_ofNat (by norm_num) hv
  | codeIn k =>
    exact (congrArg widen (Vector.getElem_set_self _)).trans (widen_ofWrite_ofNat (by norm_num) hv)
  | validIn | modeIn | devid | opf | opv => rfl

theorem State.writeInput_reg_ne {r : InReg} {r' : RegName} (v : Nat) (h : r' ≠ .inp r) :
    (s.writeInput r v).reg r' = s.reg r' := by
  cases r' with
  | cmd => exact congrArg widen (writeInput_cmd r v)
  | inp r' => exact s.writeInput_input_ne v fun hr => h (congrArg RegName.inp hr)
  | out r' => exact s.writeInput_output r v r'

theorem request_write_fitting {r : InReg} {v : Nat} (hv : v < 2 ^ r.width) :
    request (.write (RegName.inp r).number v) = .store r v := by
  rw [request, writeRequest, ofNumber_number]
  exact if_pos hv

theorem step_of_store {r : InReg} {v : Nat} (h : s.pending = .write (RegName.inp r).number v :: rest)
    (hv : v < 2 ^ r.width) : step s = .next ((s.withPending rest).writeInput r v) := by
  rw [step_of_pending h, request_write_fitting hv, serve]

/-- Settles O7. -/
theorem hostWriteStoresOneRegister : Obligations.HostWriteStoresOneRegister := by
  intro s r v rest h hv
  refine ⟨(s.withPending rest).writeInput r v, step_of_store h hv, State.writeInput_input_same hv,
    fun r' hr => ?_, State.writeInput_pending _ r v, State.writeInput_answers r v,
    State.writeInput_freeCount r v, State.writeInput_classTable _ r v⟩
  rw [State.writeInput_reg_ne v hr, State.withPending_reg]

/-! ### A host read -/

/-- A register holds no more than its width, seen at the port (R42). -/
theorem State.reg_value_lt (s : State) (r : RegName) : (s.reg r).value.toNat < 2 ^ r.width := by
  cases r with
  | cmd => exact setWidth_toNat_lt _
  | inp r => cases r with
    | opn | codeIn k => exact setWidth_toNat_lt _
    | _ => exact BitVec.isLt _
  | out r => exact BitVec.isLt _

theorem cutTo_toNat_lt (r : RegName) (v : Word) : (cutTo r v).toNat < 2 ^ r.width := by
  rw [cutTo, BitVec.toNat_ofNat]
  exact (Nat.mod_le _ _).trans_lt (Nat.mod_lt _ (Nat.two_pow_pos _))

/-- A read answers the value of a written register, and some value of the width otherwise (R43, U5). -/
theorem State.answerRead_answers (s : State) (r : RegName) :
    ∃ v, (s.answerRead r).answers = { reg := r, value := v } :: s.answers
      ∧ v.toNat < 2 ^ r.width ∧ ((s.reg r).written = true → v = (s.reg r).value) := by
  unfold State.answerRead
  split
  next => exact ⟨_, rfl, s.reg_value_lt r, fun _ => rfl⟩
  next hw => exact ⟨_, rfl, cutTo_toNat_lt r _, fun h => absurd h hw⟩

theorem request_read (r : RegName) : request (.read r.number) = .load r := by
  rw [request, readRequest, ofNumber_number]

theorem step_of_read {r : RegName} (h : s.pending = .read r.number :: rest) :
    step s = .next ((s.withPending rest).answerRead r) := by
  rw [step_of_pending h, request_read, serve]

/-- Settles O8. -/
theorem hostReadAnswers : Obligations.HostReadAnswers := by
  intro s r rest h
  obtain ⟨v, hanswers, hlt, hvalue⟩ := (s.withPending rest).answerRead_answers r
  rw [State.withPending_reg] at hvalue
  refine ⟨(s.withPending rest).answerRead r, v, step_of_read h, hanswers, hlt, hvalue, fun r' => ?_,
    State.answerRead_pending _ r, State.answerRead_classTable _ r⟩
  rw [State.answerRead_reg, State.withPending_reg]

/-! ### A command given twice -/

/-- A state is its registers, as the port shows them, and what is the host's. -/
theorem SameButOutputs.eq (h : SameButOutputs s t) (hout : ∀ r : OutReg, t.output r = s.output r) :
    t = s := by
  obtain ⟨hin, hcmd, htable, hpending, hanswers, hcount⟩ := h
  have hopn : t.opn = s.opn := widen_injective (by norm_num) (hin .opn)
  have hcodes : t.codeIn = s.codeIn :=
    Vector.ext fun k hk => widen_injective (by norm_num) (hin (.codeIn ⟨k, hk⟩))
  cases s
  cases t
  rw [State.mk.injEq]
  exact ⟨Vector.ext fun k hk => hin (.coef ⟨k, hk⟩),
    Vector.ext fun k hk => hin (.preoffIn ⟨k, hk⟩),
    Vector.ext fun k hk => hin (.postoffIn ⟨k, hk⟩), hin .validIn, hin .modeIn, hin .devid,
    hin .opf, hin .opv, hopn, hcodes, hcmd, hout .res,
    Vector.ext fun k hk => hout (.cscCoeff ⟨k, hk⟩),
    Vector.ext fun k hk => hout (.cscPreoff ⟨k, hk⟩),
    Vector.ext fun k hk => hout (.cscPostoff ⟨k, hk⟩), hout .cscMode, hout .validOut, htable,
    hpending, hanswers, hcount⟩

/-- The writes of a list, made once more, find every register as they leave it. -/
theorem State.applyAll_applyAll (s : State) (ws : List OutputWrite) :
    (s.applyAll ws).applyAll ws = s.applyAll ws := by
  refine ((s.applyAll ws).applyAll_same ws).eq fun r => ?_
  by_cases hr : r ∈ ws.flatMap OutputWrite.regs
  · obtain ⟨x, hx⟩ := applyAll_output_of_mem hr
    rw [hx, hx]
  · exact applyAll_output_of_not_mem hr

/-- Settles O20: a command leaves what it reads as it was (R23, R28), so it makes the same writes again. -/
theorem repeatedCommandChangesNothing : Obligations.RepeatedCommandChangesNothing := by
  intro i s t h
  obtain ⟨ws, hws, rfl⟩ := exec_next_writes h
  have hsame := s.applyAll_same ws
  have hagree : AgreeOnReads i s (s.applyAll ws) := ⟨fun r _ => hsame.input r, hsame.classTable⟩
  rw [hws.run _ hagree, s.applyAll_applyAll]

/-! ### Several instances -/

/-- A step at `k` puts one state at `k`, and the state that stands there decides which, whatever the others are
(R48). Where none stands, nothing is put. -/
theorem stepInstance_next {k : Nat} {l a : Instances} (h : stepInstance k l = .next a) :
    ∃ t, a = l.set k t ∧
      ∀ m : Instances, m[k]? = l[k]? → stepInstance k m = .next (m.set k t) := by
  cases hk : l[k]? with
  | none =>
    have hno (m : Instances) (hm : m[k]? = none) :
        stepInstance k m = .next (m.set k State.reset) := by
      rw [stepInstance, hm, List.set_eq_of_length_le (List.getElem?_eq_none_iff.mp hm)]
    exact ⟨State.reset, Host.Outcome.next.inj (h.symm.trans (hno l hk)), hno⟩
  | some s =>
    cases hs : step s with
    | next t =>
      have hput (m : Instances) (hm : m[k]? = some s) : stepInstance k m = .next (m.set k t) := by
        simp only [stepInstance, hm, hs]
      exact ⟨t, Host.Outcome.next.inj (h.symm.trans (hput l hk)), hput⟩
    | fault f => cases f
    | refused why =>
      simp only [stepInstance, hk, hs] at h
      cases h

/-- Settles O24: each of two steps finds the state it works on as it was before the other one. -/
theorem instancesIsolated : Obligations.InstancesIsolated := by
  refine ⟨fun k j l a h hjk => ?_, fun k j l a b hkj ha hb => ?_⟩
  · obtain ⟨t, rfl, -⟩ := stepInstance_next h
    exact List.getElem?_set_ne hjk.symm
  · obtain ⟨t, rfl, hk⟩ := stepInstance_next ha
    obtain ⟨u, rfl, hj⟩ := stepInstance_next hb
    refine ⟨(l.set k t).set j u, hj _ (List.getElem?_set_ne hkj), ?_⟩
    rw [hk _ (List.getElem?_set_ne hkj.symm), List.set_comm _ _ hkj]

end Sys2Proof.Machine
end

section
/-! PROOF. The encodings of the commands: decoding and encoding are inverse to each other (R50 to R52), and the
reserved words have no meaning (R62). -/

namespace Sys2Proof.Machine

/-- A word is put together again from its fields (R50). -/
theorem encode_decode : ∀ w : CommandWord, encode (decode w) = w := by decide

/-- No word but the reserved ones decodes to a reserved row (R62). -/
theorem reserved_of_decode : ∀ w : CommandWord, (decode w).wellFormed = false →
    w = 0x04 ∨ w = 0x0C ∨ 0x14 ≤ w.toNat := by
  decide

/-- Settles O2. -/
theorem decodeEncodeRoundTrip : Obligations.DecodeEncodeRoundTrip :=
  ⟨decode_encode, encode_decode, fun w => ⟨reserved_of_decode w, decode_reserved w⟩⟩

/-- Settles O1: the words written out are those of the encoder, which the decoder inverts. -/
theorem tableWordsDecode : Obligations.TableWordsDecode :=
  ⟨fun v => decode_encode (.bitrev v), decode_encode .reservedEncc0, decode_encode .enccL,
    decode_encode (.enccM .a), decode_encode (.enccM .b), fun v => decode_encode (.enco v),
    decode_encode .reservedPack0, decode_encode .packL, decode_encode (.packM .a),
    decode_encode (.packM .b), fun v => decode_encode (.build v),
    fun v => decode_encode (.reservedOp5 v), fun o v => decode_encode (.reservedOp67 o v)⟩

/-- Settles O23: the reserved words decode to commands that are not well-formed, and none of these runs. -/
theorem reservedCommandsRefused : Obligations.ReservedCommandsRefused :=
  ⟨fun _ w hw => exec_of_reserved (decode_reserved w hw), fun _ _ _ =>
    ⟨exec_of_reserved rfl, exec_of_reserved rfl, exec_of_reserved rfl, exec_of_reserved rfl⟩⟩

end Sys2Proof.Machine
end

section
/-! PROOF. The classification is the machine's for life (R67): no access of the host reaches it. -/

namespace Sys2Proof.Machine

variable {s t : State}

theorem serve_classTable {q : Request} (h : serve q s = .next t) : t.classTable = s.classTable := by
  cases q with
  | store r v =>
    obtain rfl := Host.Outcome.next.inj h
    exact s.writeInput_classTable r v
  | command w i =>
    obtain ⟨-, -, -, -, htable, -⟩ := commandFrame i _ t h
    exact htable
  | load r =>
    obtain rfl := Host.Outcome.next.inj h
    exact s.answerRead_classTable r
  | reset =>
    obtain rfl := Host.Outcome.next.inj h
    rfl
  | refuse why => cases h

/-- Settles O16. -/
theorem classificationFixed : Obligations.ClassificationFixed := by
  intro s t h
  rcases step_next h with ⟨-, rfl⟩ | ⟨e, rest, -, hserve⟩
  · rfl
  · exact serve_classTable (s := s.withPending rest) hserve

end Sys2Proof.Machine
end

section
/-! PROOF. The value of a binary32 pattern (R66): the fields of a pattern, and the value they give, one lemma per
line of the rule. -/

namespace Sys2Proof.Machine

variable {p : Word} {s : Bool} {x f : ℕ}

/-- The three fields of a binary32 pattern, as numbers (R66). -/
structure PatternFields (p : Word) (s : Bool) (x f : ℕ) : Prop where
  sign : p.getLsbD 31 = s
  exponent : (p.extractLsb' 23 8).toNat = x
  fraction : (p.extractLsb' 0 23).toNat = f

theorem patternFields (p : Word) :
    PatternFields p (p.getLsbD 31) (p.extractLsb' 23 8).toNat (p.extractLsb' 0 23).toNat :=
  ⟨rfl, rfl, rfl⟩

/-- The fields lie side by side in the pattern. -/
theorem patternFields_of_toNat (hx : x < 2 ^ 8) (hf : f < 2 ^ 23)
    (hp : p.toNat = s.toNat * 2 ^ 31 + x * 2 ^ 23 + f) : PatternFields p s x f := by
  have hs : s.toNat ≤ 1 := s.toNat_le
  refine ⟨?_, ?_, ?_⟩
  · have hdiv : p.toNat / 2 ^ 31 = s.toNat := by omega
    rw [BitVec.getLsbD, Nat.testBit_eq_decide_div_mod_eq, hdiv]
    cases s <;> rfl
  · rw [BitVec.extractLsb'_toNat, Nat.shiftRight_eq_div_pow]
    omega
  · rw [BitVec.extractLsb'_toNat, Nat.shiftRight_eq_div_pow]
    omega

/-- Flipping bit 31 flips the sign and leaves the other fields. -/
theorem PatternFields.flipSign (h : PatternFields p s x f) :
    PatternFields (p ^^^ 0x80000000#32) (!s) x f := by
  obtain ⟨rfl, rfl, rfl⟩ := h
  refine ⟨?_, ?_, ?_⟩
  · rw [BitVec.getLsbD_xor]
    exact Bool.xor_true _
  · rw [BitVec.extractLsb'_xor]
    exact congrArg BitVec.toNat BitVec.xor_zero
  · rw [BitVec.extractLsb'_xor]
    exact congrArg BitVec.toNat BitVec.xor_zero

/-! ### The lines of R66 -/

theorem signFactor_eq_pow (s : Bool) : signFactor s = (-1) ^ s.toNat := by
  cases s <;> simp [signFactor]

theorem signFactor_not (s : Bool) : signFactor (!s) = -signFactor s := by
  cases s <;> simp [signFactor]

theorem PatternFields.floatVal_infinite (h : PatternFields p s 255 0) :
    floatVal p = some (.infinite s) := by
  simp only [floatVal, h.sign, h.exponent, h.fraction, if_true]

theorem PatternFields.floatVal_nan (h : PatternFields p s 255 f) (hf : f ≠ 0) :
    floatVal p = none := by
  simp only [floatVal, h.exponent, h.fraction, if_true, if_neg hf]

theorem PatternFields.floatVal_subnormal (h : PatternFields p s 0 f) :
    floatVal p = some (.finite (signFactor s * (f / 2 ^ 149))) := by
  have hscale : (2 : ℚ) ^ (-126 : ℤ) * (f / 2 ^ 23) = f / 2 ^ 149 := by
    norm_num
    ring
  simp only [floatVal, h.sign, h.exponent, h.fraction, if_true, mul_assoc, hscale]
  rfl

theorem PatternFields.floatVal_normal (h : PatternFields p s x f) (h0 : x ≠ 0) (h255 : x ≠ 255) :
    floatVal p = some (.finite (signFactor s * (2 ^ x * ((2 ^ 23 + f) / 2 ^ 150)))) := by
  have hscale : (2 : ℚ) ^ ((x : ℤ) - 127) * (1 + f / 2 ^ 23) = 2 ^ x * ((2 ^ 23 + f) / 2 ^ 150) := by
    rw [zpow_sub₀ two_ne_zero, zpow_natCast]
    norm_num
    ring
  simp only [floatVal, h.sign, h.exponent, h.fraction, if_neg h0, if_neg h255, mul_assoc, hscale]

/-- Settles O28. -/
theorem floatPatternValue : Obligations.FloatPatternValue := by
  refine ⟨fun clip neg => rfl, fun s x f p hx hf hp => ?_⟩
  have h : PatternFields p s x f := patternFields_of_toNat hx hf hp
  rw [← signFactor_eq_pow, mul_assoc]
  refine ⟨?_, ?_, ?_, fun h255 h0 => h.floatVal_normal h0 h255⟩
  · rintro rfl rfl
    exact h.floatVal_infinite
  · rintro rfl hf
    exact h.floatVal_nan hf
  · rintro rfl
    exact h.floatVal_subnormal

/-- Settles O29: the flipped pattern falls under the same line of R66, with the other sign. -/
theorem floatSignBitNegates : Obligations.FloatSignBitNegates := by
  intro p
  have h := patternFields p
  generalize p.getLsbD 31 = s, (p.extractLsb' 23 8).toNat = x, (p.extractLsb' 0 23).toNat = f at h
  by_cases h255 : x = 255
  · subst h255
    by_cases hf : f = 0
    · subst hf
      rw [h.floatVal_infinite, h.flipSign.floatVal_infinite]
      rfl
    · rw [h.floatVal_nan hf, h.flipSign.floatVal_nan hf]
      rfl
  · by_cases h0 : x = 0
    · subst h0
      rw [h.floatVal_subnormal, h.flipSign.floatVal_subnormal, signFactor_not, neg_mul]
      rfl
    · rw [h.floatVal_normal h0 h255, h.flipSign.floatVal_normal h0 h255, signFactor_not, neg_mul]
      rfl

end Sys2Proof.Machine
end

section
/-! PROOF. The codes that the coefficient encoders never produce (R53, R54), from the range of the clipped
magnitude. -/

namespace Sys2Proof.Machine

variable {a : ℚ}

/-! ### The 12-bit family -/

theorem magnitude12_le (h0 : 0 ≤ a) (h : a ≤ Params.lClip) : magnitude12 a ≤ 2046 := by
  rw [Params.lClip] at h
  have hfloor : ⌊a * 1024⌋ < 2047 := Int.floor_lt.mpr (by push_cast; linarith)
  rw [← magnitude12_eq_floor h0 (by linarith)] at hfloor
  omega

theorem enc12_range (x : FloatVal) : (enc12 x).toNat ≤ 0x7FE ∨ 0x802 ≤ (enc12 x).toNat := by
  obtain ⟨h0, h⟩ := clippedMagnitude_mem (clip := Params.lClip) (by norm_num) x
  have hm := magnitude12_le h0 h
  unfold enc12
  split
  · exact .inl (Nat.zero_le _)
  · dsimp only
    split
    · rw [negWord_toNat, BitVec.toNat_ofNat]
      omega
    · rw [BitVec.toNat_ofNat]
      omega

/-! ### The 16-bit family -/

theorem emissionBody_e_le {s : Emission} (ge1 : Bool) (h : s.e ≤ Params.mExpCap) :
    (emissionBody ge1 s).e ≤ Params.mExpCap := by
  unfold emissionBody
  dsimp only
  split
  next hb =>
    obtain ⟨-, -, -, hlt⟩ := hb
    exact hlt
  next => exact h

theorem emissionLoop_e_le {ge1 : Bool} {window fuel : Nat} {s : Emission} (h : s.e ≤ Params.mExpCap) :
    (emissionLoop ge1 window fuel s).e ≤ Params.mExpCap := by
  induction fuel generalizing s with
  | zero => exact h
  | succ fuel ih =>
    rw [emissionLoop]
    split
    · exact ih (emissionBody_e_le ge1 h)
    · exact h

/-- Below 1 the exponent counts absorbed zeros, at most three (R79, R87). -/
theorem emission_e_le_of_lt_one (h : a < 1) : (emission a).e ≤ 3 := by
  have hge : magnitudeGe1 a = false := decide_eq_false (not_le.mpr h)
  simp only [emission, hge]
  exact emissionLoop_e_le (Nat.zero_le _)

/-- From 1 up the exponent is 8 minus the integer part, which is 1 or 2 (R79). -/
theorem emission_e_of_one_le (h1 : 1 ≤ a) (h : a ≤ Params.mClip) :
    (emission a).e = 6 ∨ (emission a).e = 7 := by
  rw [Params.mClip] at h
  have hlo : 1 ≤ ⌊a⌋ := Int.le_floor.mpr (by exact_mod_cast h1)
  have hhi : ⌊a⌋ < 3 := Int.floor_lt.mpr (by push_cast; linarith)
  have he := (emission_from_one h1).1
  omega

theorem enc16_of_isZero {x : FloatVal} (h : isZero x = true) : enc16 x = 0 := by
  rw [enc16, if_pos h]

theorem enc16_lowBits (x : FloatVal) : (enc16 x).extractLsb' 0 3 = 0 := by
  cases hz : isZero x with
  | true => rw [enc16_of_isZero hz]; rfl
  | false =>
    obtain ⟨-, -, -, hlow⟩ := enc16_fields hz
    exact hlow

theorem exponentField_enc16 (x : FloatVal) :
    exponentField (enc16 x) ≤ 3 ∨ exponentField (enc16 x) = 6 ∨ exponentField (enc16 x) = 7 := by
  cases hz : isZero x with
  | true => rw [enc16_of_isZero hz]; exact .inl (Nat.zero_le _)
  | false =>
    obtain ⟨-, he, -, -⟩ := enc16_fields hz
    rw [he]
    obtain ⟨-, hclip⟩ := clippedMagnitude_mem (clip := Params.mClip) (by norm_num) x
    rcases lt_or_ge (clippedMagnitude Params.mClip x) 1 with hlt | hge
    · exact .inl (emission_e_le_of_lt_one hlt)
    · exact .inr (emission_e_of_one_le hge hclip)

/-- Settles O37. -/
theorem coefficientCodeRanges : Obligations.CoefficientCodeRanges := by
  intro x
  have he := exponentField_enc16 x
  exact ⟨enc12_range x, enc16_lowBits x, by omega, by omega⟩

end Sys2Proof.Machine
end

section
/-! PROOF. The pseudo-instructions (R69): the lines that load a group of input registers are served in one step
each, and leave the group with the values given. -/

namespace Sys2Proof.Machine

variable {s t : State} {rest : List HostEvent} {n w : Nat}

theorem run_succ_of_step {k : Nat} (h : step s = .next t) : core.run (k + 1) s = core.run k t := by
  have hcore : core.step s = .next t := h
  simp only [Host.Core.run, hcore]

/-! ### Groups of input registers -/

/-- `put` builds states that differ in nothing but the registers of the group `name` and the accesses still to
serve; a write of one register of the group replaces that register there (R43). -/
structure InputGroup (name : Fin n → InReg) (put : Vector (Reg w) n → List HostEvent → State) : Prop where
  width : ∀ i, (name i).width = w
  pending : ∀ regs rest, (put regs rest).pending = rest
  store : ∀ regs rest rest' (i : Fin n) (v : Nat),
    ((put regs rest).withPending rest').writeInput (name i) v =
      put (regs.set i (Reg.ofWrite (BitVec.ofNat w v))) rest'

theorem coef_inputGroup (s : State) :
    InputGroup .coef fun regs rest => { s with coef := regs, pending := rest } :=
  ⟨fun _ => rfl, fun _ _ => rfl, fun _ _ _ _ _ => rfl⟩

theorem preoffIn_inputGroup (s : State) :
    InputGroup .preoffIn fun regs rest => { s with preoffIn := regs, pending := rest } :=
  ⟨fun _ => rfl, fun _ _ => rfl, fun _ _ _ _ _ => rfl⟩

theorem postoffIn_inputGroup (s : State) :
    InputGroup .postoffIn fun regs rest => { s with postoffIn := regs, pending := rest } :=
  ⟨fun _ => rfl, fun _ _ => rfl, fun _ _ _ _ _ => rfl⟩

theorem codeIn_inputGroup (s : State) :
    InputGroup .codeIn fun regs rest => { s with codeIn := regs, pending := rest } :=
  ⟨fun _ => rfl, fun _ _ => rfl, fun _ _ _ _ _ => rfl⟩

/-! ### Lines that load a group -/

/-- The lines that write the values `x` to the registers `name`, in the order of `l`. -/
def loadLines (name : Fin n → InReg) (x : Fin n → BitVec w) (l : List (Fin n)) : List HostEvent :=
  l.map fun i => wrEvent (name i) (x i).toNat

/-- The registers `regs` of a group, after these lines. -/
def loaded (x : Fin n → BitVec w) (l : List (Fin n)) (regs : Vector (Reg w) n) : Vector (Reg w) n :=
  l.foldl (fun regs (i : Fin n) => regs.set i (Reg.ofWrite (x i))) regs

theorem loaded_cons (x : Fin n → BitVec w) (i : Fin n) (l : List (Fin n)) (regs : Vector (Reg w) n) :
    loaded x (i :: l) regs = loaded x l (regs.set i (Reg.ofWrite (x i))) := rfl

theorem getElem_loaded (x : Fin n → BitVec w) (l : List (Fin n)) (regs : Vector (Reg w) n) (j : Fin n) :
    (loaded x l regs)[j] = if j ∈ l then Reg.ofWrite (x j) else regs[j] := by
  induction l generalizing regs with
  | nil => rfl
  | cons i l ih =>
    rw [loaded_cons, ih]
    by_cases hi : i = j
    · simp [hi]
    · have hne : (i : ℕ) ≠ j := Fin.val_ne_of_ne hi
      simp [hne, Ne.symm hi]

theorem loaded_finRange (x : Fin n → BitVec w) (regs : Vector (Reg w) n) :
    loaded x (List.finRange n) regs = Vector.ofFn fun i => Reg.ofWrite (x i) := by
  refine Vector.ext fun j hj => ?_
  rw [Vector.getElem_ofFn]
  exact (getElem_loaded x _ regs ⟨j, hj⟩).trans (if_pos (List.mem_finRange _))

section
variable {name : Fin n → InReg} {put : Vector (Reg w) n → List HostEvent → State}

theorem InputGroup.step_line (h : InputGroup name put) (regs : Vector (Reg w) n) (rest : List HostEvent)
    (i : Fin n) (v : BitVec w) :
    step (put regs (wrEvent (name i) v.toNat :: rest)) = .next (put (regs.set i (Reg.ofWrite v)) rest) := by
  have hfit : v.toNat < 2 ^ (name i).width := by
    rw [h.width]
    exact v.isLt
  refine (step_of_store (h.pending _ _) hfit).trans ?_
  rw [h.store, BitVec.ofNat_toNat, BitVec.setWidth_eq]

/-- The lines take one step each; `k` steps are left. -/
theorem InputGroup.run_lines (h : InputGroup name put) (x : Fin n → BitVec w) (l : List (Fin n))
    (regs : Vector (Reg w) n) (rest : List HostEvent) (k : Nat) :
    core.run (l.length + k) (put regs (loadLines name x l ++ rest)) =
      core.run k (put (loaded x l regs) rest) := by
  induction l generalizing regs with
  | nil => rw [List.length_nil, Nat.zero_add]; rfl
  | cons i l ih =>
    rw [List.length_cons, Nat.add_right_comm, loaded_cons, ← ih]
    exact run_succ_of_step (h.step_line regs _ i (x i))

/-- A whole group, in the order of its registers. -/
theorem InputGroup.run_group (h : InputGroup name put) (x : Fin n → BitVec w)
    (regs : Vector (Reg w) n) (rest : List HostEvent) (k : Nat) :
    core.run (n + k) (put regs (loadLines name x (List.finRange n) ++ rest)) =
      core.run k (put (Vector.ofFn fun i => Reg.ofWrite (x i)) rest) := by
  have hrun := h.run_lines x (List.finRange n) regs rest k
  rwa [List.length_finRange, loaded_finRange] at hrun

end

/-! ### The pseudo-instructions -/

theorem assemble_ldmat (m : Vector FloatLiteral 9) :
    assemble (.ldmat m) = loadLines .coef (fun i => m[i].word) (List.finRange 9) := rfl

theorem assemble_ldoff (p q : Vector FloatLiteral 3) :
    assemble (.ldoff p q) = loadLines .preoffIn (fun j => p[j].word) (List.finRange 3)
      ++ loadLines .postoffIn (fun j => q[j].word) (List.finRange 3) := rfl

theorem assemble_ldcodes (codes : Vector Code16 9) :
    assemble (.ldcodes codes) = loadLines .codeIn (fun i => codes[i]) (List.finRange 9) := rfl

/-- The accesses still to serve, made visible in the state. -/
theorem eq_withPending {events : List HostEvent} (h : s.pending = events) : s = s.withPending events := by
  subst h
  rfl

theorem run_ldmat (m : Vector FloatLiteral 9) (h : s.pending = assemble (.ldmat m) ++ rest) :
    core.run 9 s =
      .next { s with coef := Vector.ofFn fun i => Reg.ofWrite m[i].word, pending := rest } := by
  rw [assemble_ldmat] at h
  exact (congrArg _ (eq_withPending h)).trans ((coef_inputGroup s).run_group _ s.coef rest 0)

theorem run_ldcodes (codes : Vector Code16 9) (h : s.pending = assemble (.ldcodes codes) ++ rest) :
    core.run 9 s =
      .next { s with codeIn := Vector.ofFn fun i => Reg.ofWrite codes[i], pending := rest } := by
  rw [assemble_ldcodes] at h
  exact (congrArg _ (eq_withPending h)).trans ((codeIn_inputGroup s).run_group _ s.codeIn rest 0)

/-- The first three lines load one group, and the other three the other. -/
theorem run_ldoff (p q : Vector FloatLiteral 3) (h : s.pending = assemble (.ldoff p q) ++ rest) :
    core.run 6 s = .next { s with
      preoffIn := Vector.ofFn fun j => Reg.ofWrite p[j].word
      postoffIn := Vector.ofFn fun j => Reg.ofWrite q[j].word
      pending := rest } := by
  rw [assemble_ldoff, List.append_assoc] at h
  have hpre := (preoffIn_inputGroup s).run_group (fun j => p[j].word) s.preoffIn
    (loadLines .postoffIn (fun j => q[j].word) (List.finRange 3) ++ rest) 3
  have hpost := (postoffIn_inputGroup
    { s with preoffIn := Vector.ofFn fun j => Reg.ofWrite p[j].word }).run_group
      (fun j => q[j].word) s.postoffIn rest 0
  exact (congrArg _ (eq_withPending h)).trans (hpre.trans hpost)

/-- Settles O11. -/
theorem pseudoInstructionsLoad : Obligations.PseudoInstructionsLoad :=
  ⟨fun _ => rfl, fun _ _ => rfl, fun _ => rfl, fun _ m _ h => run_ldmat m h,
    fun _ p q _ h => run_ldoff p q h, fun _ codes _ h => run_ldcodes codes h,
    rfl, rfl, rfl, rfl, rfl, rfl⟩

end Sys2Proof.Machine
end

section
/-! PROOF. Bit reversal (R70 to R72): the bits of the reversal, one bit counted at a time, and what `BITREV`
makes of them. -/

namespace Sys2Proof.Machine

/-- The bit counted last is the lowest bit of the reversal; the others move up by one. The contract's bound
on `n` is not needed. -/
theorem testBit_bitrev (v n i : Nat) :
    (bitrev v n).testBit i = if i < n then v.testBit (n - 1 - i) else false := by
  induction n generalizing i with
  | zero => simp
  | succ n ih =>
    rw [bitrev_succ, ← Nat.bit_val]
    cases i with
    | zero => simp
    | succ i =>
      have hidx : n - 1 - i = n + 1 - 1 - (i + 1) := by omega
      simp only [Nat.testBit_bit_succ, ih, hidx, Nat.succ_lt_succ_iff]

/-- Position `n-1-i` is mirrored to `i` again. -/
theorem bitrev_bitrev (v n : Nat) : bitrev (bitrev v n) n = v % 2 ^ n := by
  refine Nat.eq_of_testBit_eq fun i => ?_
  rw [testBit_bitrev, testBit_bitrev, Nat.testBit_mod_two_pow]
  by_cases hi : i < n
  · have hmirror : n - 1 - i < n := by omega
    have hback : n - 1 - (n - 1 - i) = i := by omega
    simp [hi, hmirror, hback]
  · simp [hi]

/-- Settles O25. -/
theorem bitrevMirrorsField : Obligations.BitrevMirrorsField := fun v n i _ => testBit_bitrev v n i

/-- Settles O26. -/
theorem bitrevSelfInverse : Obligations.BitrevSelfInverse := fun v n _ => bitrev_bitrev v n

/-! ### `BITREV` -/

theorem exec_bitrev (var : BitVec 2) (s : State) : exec (.bitrev var) s = execBitrev var s := rfl

/-- A reversal within the contract fits in `RES`. -/
theorem toNat_ofNat_bitrev {v n : Nat} (h : n ≤ 16) :
    (BitVec.ofNat 32 (bitrev v n)).toNat = bitrev v n := by
  have hpow : 2 ^ n ≤ 2 ^ 32 := Nat.pow_le_pow_right (by decide) (by omega)
  rw [BitVec.toNat_ofNat, Nat.mod_eq_of_lt ((bitrev_lt v n).trans_le hpow)]

theorem getLsbD_ofNat_bitrev {v : Word} {n : Nat} (h : n ≤ 16) (i : Nat) :
    (BitVec.ofNat 32 (bitrev v.toNat n)).getLsbD i = (decide (i < n) && v.getLsbD (n - 1 - i)) := by
  rw [← BitVec.testBit_toNat, toNat_ofNat_bitrev h, testBit_bitrev, BitVec.testBit_toNat]
  by_cases hi : i < n <;> simp [hi]

/-- Settles O27: the count decides between completing and being refused. -/
theorem bitrevWritesRes : Obligations.BitrevWritesRes := by
  refine ⟨fun v => decode_encode (.bitrev v), by decide, fun var s hv hn => ⟨fun hle => ?_, fun hgt => ?_⟩⟩
  · exact ⟨_, (exec_bitrev var s).trans ((execBitrev_next var).mpr ⟨hv, hn, hle, rfl⟩),
      toNat_ofNat_bitrev hle, getLsbD_ofNat_bitrev hle⟩
  · rw [exec_bitrev, execBitrev_refused, hv, hn]
    exact .inr ⟨rfl, hgt, rfl⟩

end Sys2Proof.Machine
end

section
/-! PROOF. What `ENCC.L` and `ENCC.M` make of `OPF` (R77, R80), and the bound on the turns of the loop of
`enc16` (R87). -/

namespace Sys2Proof.Machine

variable {s : State}

/-! ### The operations -/

theorem encodeOpf_of_value {n : Nat} (enc : FloatVal → BitVec n) (hw : s.opf.written = true) {x : FloatVal}
    (hx : floatVal s.opf.value = some x) : encodeOpf enc s = .next (s.setRes ((enc x).setWidth 32)) :=
  (encodeOpf_next enc).mpr ⟨hw, x, hx, rfl⟩

theorem encodeOpf_of_nan {n : Nat} (enc : FloatVal → BitVec n) (hw : s.opf.written = true)
    (hx : floatVal s.opf.value = none) : encodeOpf enc s = .refused .nanOperand :=
  (encodeOpf_refused enc).mpr (.inr ⟨hw, hx, rfl⟩)

/-- Settles O30. -/
theorem enccLWritesRes : Obligations.EnccLWritesRes :=
  ⟨decode_encode .enccL, by decide +kernel, fun _ hw =>
    ⟨fun _ hx => encodeOpf_of_value enc12 hw hx, fun hx => encodeOpf_of_nan enc12 hw hx⟩⟩

/-- Settles O31. -/
theorem enccMWritesRes : Obligations.EnccMWritesRes :=
  ⟨⟨decode_encode (.enccM .a), decode_encode (.enccM .b)⟩, by decide +kernel, fun _ _ hw =>
    ⟨fun _ hx => encodeOpf_of_value enc16 hw hx, fun hx => encodeOpf_of_nan enc16 hw hx⟩⟩

/-! ### The loop of `enc16` -/

/-- A bound on the turns that the loop has left: a turn fills a place of the window or absorbs a zero. -/
def turnsLeft (window : Nat) (s : Emission) : Nat := (window - s.k) + (Params.mExpCap - s.e)

theorem turnsLeft_emissionBody {window : Nat} {s : Emission} (ge1 : Bool) (h : s.k < window) :
    (emissionBody ge1 s).k ≤ window
      ∧ turnsLeft window (emissionBody ge1 s) < turnsLeft window s := by
  unfold emissionBody turnsLeft
  dsimp only
  split
  next hb =>
    obtain ⟨-, -, -, hcap⟩ := hb
    dsimp only
    omega
  next =>
    dsimp only
    omega

theorem emissionLoop_fills {ge1 : Bool} {window fuel : Nat} {s : Emission} (hk : s.k ≤ window)
    (hfuel : turnsLeft window s ≤ fuel) : (emissionLoop ge1 window fuel s).k = window := by
  induction fuel generalizing s with
  | zero =>
    rw [emissionLoop]
    unfold turnsLeft at hfuel
    omega
  | succ fuel ih =>
    rw [emissionLoop]
    split
    next hlt =>
      obtain ⟨hk', hturns⟩ := turnsLeft_emissionBody ge1 hlt
      exact ih hk' (by omega)
    next => omega

theorem emissionLoop_of_full {ge1 : Bool} {window : Nat} {s : Emission} (fuel : Nat) (h : window ≤ s.k) :
    emissionLoop ge1 window fuel s = s := by
  cases fuel with
  | zero => rfl
  | succ fuel => rw [emissionLoop, if_neg (by omega)]

theorem emissionLoop_add {ge1 : Bool} {window : Nat} (m n : Nat) (s : Emission) :
    emissionLoop ge1 window (m + n) s = emissionLoop ge1 window n (emissionLoop ge1 window m s) := by
  induction m generalizing s with
  | zero => rw [Nat.zero_add, emissionLoop]
  | succ m ih =>
    rw [Nat.succ_add, emissionLoop, emissionLoop]
    split
    · exact ih _
    next hfull => exact (emissionLoop_of_full n (by omega)).symm

theorem turnsLeft_le_of_empty {s : Emission} (ge1 : Bool) (h : s.k = 0) :
    turnsLeft (keptWindow ge1) s ≤ 12 := by
  have hwindow : keptWindow ge1 ≤ 9 := by cases ge1 <;> decide
  unfold turnsLeft Params.mExpCap
  omega

/-- Settles O40: once the window is full, a turn more changes nothing. -/
theorem enc16LoopBounded : Obligations.Enc16LoopBounded := by
  refine ⟨fun ge1 n s hs => ?_, fun a _ h1 => emission_e_le_of_lt_one h1⟩
  have hfull : (emissionLoop ge1 (keptWindow ge1) 12 s).k = keptWindow ge1 :=
    emissionLoop_fills (by omega) (turnsLeft_le_of_empty ge1 hs)
  exact ⟨by rw [emissionLoop_add, emissionLoop_of_full n hfull.ge], hfull⟩

end Sys2Proof.Machine
end

section
/-! PROOF. The 12-bit family: its code is the truncated magnitude under the sign (R78), and what the encoders
of both families read of a value: whether it is zero, its sign and its clipped magnitude. -/

namespace Sys2Proof.Machine

variable {x : FloatVal} {clip : ℚ}

/-! ### Zero, sign and clipped magnitude -/

theorem isZero_iff : isZero x = true ↔ x = .finite 0 := by
  cases x <;> simp [isZero]

theorem isZero_finite_of_ne {q : ℚ} (h : q ≠ 0) : isZero (.finite q) = false := decide_eq_false h

theorem isNegative_finite {q : ℚ} : isNegative (.finite q) = true ↔ q < 0 := decide_eq_true_iff

theorem clippedMagnitude_of_isZero (h : 0 ≤ clip) (hz : isZero x = true) : clippedMagnitude clip x = 0 := by
  rw [isZero_iff.mp hz, clippedMagnitude_finite, abs_zero, min_eq_left h]

theorem isZero_of_clippedMagnitude_pos (h : 0 ≤ clip) (hpos : 0 < clippedMagnitude clip x) :
    isZero x = false :=
  Bool.eq_false_iff.mpr fun hz => hpos.ne' (clippedMagnitude_of_isZero h hz)

theorem clippedMagnitude_of_le {q : ℚ} (h0 : 0 ≤ q) (h : q ≤ clip) :
    clippedMagnitude clip (.finite q) = q := by
  rw [clippedMagnitude_finite, abs_of_nonneg h0, min_eq_left h]

theorem isZero_negVal (x : FloatVal) : isZero (negVal x) = isZero x := by
  cases x <;> simp [isZero, negVal]

theorem clippedMagnitude_negVal (clip : ℚ) (x : FloatVal) :
    clippedMagnitude clip (negVal x) = clippedMagnitude clip x := by
  cases x <;> simp [clippedMagnitude, negVal]

theorem isNegative_negVal (hz : isZero x = false) : isNegative (negVal x) = !isNegative x := by
  cases x with
  | infinite neg => rfl
  | finite q =>
    have hq : q ≠ 0 := of_decide_eq_false hz
    rw [Bool.eq_iff_iff, Bool.not_eq_true', ← Bool.not_eq_true, negVal, isNegative_finite,
      isNegative_finite, neg_lt_zero, not_lt]
    exact ⟨le_of_lt, fun h => lt_of_le_of_ne h hq.symm⟩

/-- A value clipped on the positive side is encoded as the positive infinity is, on the negative side as the
negative one (R75, R84). -/
theorem clippedMagnitude_of_clip_le {q : ℚ} (h : clip ≤ |q|) (neg : Bool) :
    clippedMagnitude clip (.finite q) = clippedMagnitude clip (.infinite neg) := by
  rw [clippedMagnitude_finite, min_eq_right h, clippedMagnitude]

/-! ### The 12-bit family -/

theorem magnitude12_clipped_le (x : FloatVal) : magnitude12 (clippedMagnitude Params.lClip x) ≤ 2046 := by
  obtain ⟨h0, h⟩ := clippedMagnitude_mem (clip := Params.lClip) (by norm_num) x
  exact magnitude12_le h0 h

theorem magnitude12_clipped_eq_floor (x : FloatVal) :
    (magnitude12 (clippedMagnitude Params.lClip x) : ℤ) = ⌊clippedMagnitude Params.lClip x * 1024⌋ := by
  obtain ⟨h0, h⟩ := clippedMagnitude_mem (clip := Params.lClip) (by norm_num) x
  exact magnitude12_eq_floor h0 (h.trans_lt (by norm_num))

/-- The magnitude code for `x ≥ 0`, and its complement in 12 bits for `x < 0`; zero needs no case of its own
(R78). -/
theorem enc12_toNat (x : FloatVal) :
    (enc12 x).toNat =
      if isNegative x then (2 ^ 12 - magnitude12 (clippedMagnitude Params.lClip x)) % 2 ^ 12
      else magnitude12 (clippedMagnitude Params.lClip x) := by
  have hm := magnitude12_clipped_le x
  cases hz : isZero x with
  | true =>
    obtain rfl := isZero_iff.mp hz
    decide +kernel
  | false =>
    have hmod : magnitude12 (clippedMagnitude Params.lClip x) % 2 ^ 12 =
        magnitude12 (clippedMagnitude Params.lClip x) := Nat.mod_eq_of_lt (by omega)
    simp only [enc12, hz, Bool.false_eq_true, if_false]
    split
    · rw [negWord_toNat, BitVec.toNat_ofNat, hmod]
    · rw [BitVec.toNat_ofNat, hmod]

theorem magnitude12_finite (q : ℚ) :
    (magnitude12 (clippedMagnitude Params.lClip (.finite q)) : ℤ) = ⌊min |q| (1999 / 1000) * 1024⌋ := by
  rw [magnitude12_clipped_eq_floor, clippedMagnitude_finite]

theorem enc12_infinite : enc12 (.infinite false) = 0x7FE ∧ enc12 (.infinite true) = 0x802 := by
  decide +kernel

/-- Settles O32. -/
theorem enc12ClosedForm : Obligations.Enc12ClosedForm := by
  refine ⟨fun q hq => ?_, fun q hq => ?_, fun q => ?_, enc12_infinite.1, enc12_infinite.2, fun x => ?_⟩
  · rw [enc12_toNat, if_neg (by rw [isNegative_finite]; exact not_lt.mpr hq), magnitude12_finite]
  · have hm := magnitude12_clipped_le (.finite q)
    rw [enc12_toNat, if_pos (isNegative_finite.mpr hq), ← magnitude12_finite]
    omega
  · have hm := magnitude12_clipped_le (.finite q)
    rw [← magnitude12_finite]
    omega
  · have hne : ∀ c : Code12, 0x7FE < c.toNat → c.toNat < 0x802 → enc12 x ≠ c := by
      rintro c hlo hhi rfl
      have := enc12_range x
      omega
    exact ⟨hne _ (by decide) (by decide), hne _ (by decide) (by decide), hne _ (by decide) (by decide)⟩

theorem enc12_negVal (x : FloatVal) : enc12 (negVal x) = negWord (enc12 x) := by
  cases hz : isZero x with
  | true =>
    obtain rfl := isZero_iff.mp hz
    decide +kernel
  | false =>
    simp only [enc12, isZero_negVal, hz, isNegative_negVal hz, clippedMagnitude_negVal,
      Bool.false_eq_true, if_false]
    cases isNegative x with
    | false => rfl
    | true => simp [negWord_eq_neg]

theorem enc12_of_clip_le {q : ℚ} (h : Params.lClip ≤ |q|) :
    enc12 (.finite q) = enc12 (.infinite (decide (q < 0))) := by
  have hq : q ≠ 0 := by
    rintro rfl
    norm_num at h
  simp only [enc12, isZero_finite_of_ne hq, clippedMagnitude_of_clip_le h (decide (q < 0))]
  rfl

/-- The decoded magnitude is the truncated magnitude (R85). -/
theorem abs_dec12_enc12 (x : FloatVal) :
    |dec12 (enc12 x)| = (magnitude12 (clippedMagnitude Params.lClip x) : ℚ) / 1024 := by
  have hm := magnitude12_clipped_le x
  have hcode := enc12_toNat x
  generalize magnitude12 (clippedMagnitude Params.lClip x) = m at hm hcode
  have hvalue : dec12 (enc12 x) = m / 1024 ∨ dec12 (enc12 x) = -(m / 1024) := by
    unfold dec12
    rw [hcode]
    cases isNegative x with
    | false => exact .inl (by rw [if_neg Bool.false_ne_true, if_pos (by omega)])
    | true =>
      rw [if_pos rfl]
      rcases Nat.eq_zero_or_pos m with rfl | hpos
      · exact .inl (by norm_num)
      · rw [Nat.mod_eq_of_lt (by omega), if_neg (by omega), Nat.cast_sub (by omega)]
        exact .inr (by push_cast; ring)
  have hnonneg : (0 : ℚ) ≤ m / 1024 := by positivity
  rcases hvalue with hv | hv
  · rw [hv, abs_of_nonneg hnonneg]
  · rw [hv, abs_neg, abs_of_nonneg hnonneg]

/-- Truncation loses less than one step (R85). -/
theorem enc12_roundTrip (x : FloatVal) :
    0 ≤ clippedMagnitude Params.lClip x - |dec12 (enc12 x)|
      ∧ clippedMagnitude Params.lClip x - |dec12 (enc12 x)| < 1 / 2 ^ 10 := by
  obtain ⟨hlo, hhi⟩ := Int.floor_eq_iff.mp (magnitude12_clipped_eq_floor x).symm
  push_cast at hlo hhi
  rw [abs_dec12_enc12]
  constructor <;> linarith

theorem enc12_mono {a b : ℚ} (ha : 0 ≤ a) (hab : a ≤ b) :
    (enc12 (.finite a)).toNat ≤ (enc12 (.finite b)).toNat := by
  have hb := ha.trans hab
  rw [← Int.ofNat_le, enc12ClosedForm.1 a ha, enc12ClosedForm.1 b hb, abs_of_nonneg ha, abs_of_nonneg hb]
  gcongr

end Sys2Proof.Machine
end

section
/-! PROOF. The 16-bit family: its closed form (R82), and the carry that its rounding loses (R81). -/

namespace Sys2Proof.Machine

variable {x : FloatVal} {a : ℚ} {e : ℕ}

/-! ### Rounding half up -/

theorem le_roundHalfUp_iff (y : ℚ) (n : ℤ) : n ≤ roundHalfUp y ↔ (n : ℚ) - 1 / 2 ≤ y := by
  rw [← not_lt, ← not_lt, ← Int.le_sub_one_iff, roundHalfUp_le_iff]
  push_cast
  rw [show (n : ℚ) - 1 + 1 / 2 = n - 1 / 2 by ring]

theorem roundHalfUp_eq_iff (y : ℚ) (n : ℤ) :
    roundHalfUp y = n ↔ (n : ℚ) - 1 / 2 ≤ y ∧ y < n + 1 / 2 := by
  rw [le_antisymm_iff, roundHalfUp_le_iff, le_roundHalfUp_iff, and_comm]

theorem roundHalfUp_nonneg {y : ℚ} (h : 0 ≤ y) : 0 ≤ roundHalfUp y := by
  rw [le_roundHalfUp_iff]
  push_cast
  linarith

theorem roundHalfUp_add_intCast (y : ℚ) (n : ℤ) : roundHalfUp (y + n) = roundHalfUp y + n := by
  rw [roundHalfUp_eq_iff]
  obtain ⟨hlo, hhi⟩ := roundHalfUp_near y
  push_cast
  constructor <;> linarith

/-! ### The fields of a `code16` -/

theorem toNat_eq_fields (c : Code16) :
    c.toNat = (signField c).toNat * 2 ^ 15 + exponentField c * 2 ^ 12 + mantissaField c * 2 ^ 3
      + (c.extractLsb' 0 3).toNat := by
  have hlt := c.isLt
  have hsign : (signField c).toNat = c.toNat / 2 ^ 15 := by
    rw [signField, ← BitVec.testBit_toNat, Nat.toNat_testBit]
    omega
  rw [hsign, exponentField, mantissaField, BitVec.extractLsb'_toNat, BitVec.extractLsb'_toNat,
    BitVec.extractLsb'_toNat, Nat.shiftRight_eq_div_pow, Nat.shiftRight_eq_div_pow,
    Nat.shiftRight_eq_div_pow]
  omega

/-- The three fields and the low bits make up the code (R54). -/
theorem code16_ext {c d : Code16} (hs : signField c = signField d) (he : exponentField c = exponentField d)
    (hm : mantissaField c = mantissaField d) (hlow : c.extractLsb' 0 3 = d.extractLsb' 0 3) : c = d :=
  BitVec.eq_of_toNat_eq (by rw [toNat_eq_fields, toNat_eq_fields d, hs, he, hm, hlow])

theorem signField_enc16 (hz : isZero x = false) : signField (enc16 x) = isNegative x := by
  obtain ⟨hs, -, -, -⟩ := enc16_fields hz
  exact hs

theorem clipped16_nonneg (x : FloatVal) : 0 ≤ clippedMagnitude Params.mClip x :=
  (clippedMagnitude_mem (by norm_num) x).1

theorem clipped16_le (x : FloatVal) : clippedMagnitude Params.mClip x ≤ Params.mClip :=
  (clippedMagnitude_mem (by norm_num) x).2

theorem isZero_of_clipped16_pos (h : 0 < clippedMagnitude Params.mClip x) : isZero x = false :=
  isZero_of_clippedMagnitude_pos (by norm_num) h

/-! ### Below 1 -/

/-- The loop of `enc16` absorbs `e` zeros of a magnitude below 1: all its leading zeros, at most 3 (R79). -/
structure Absorbs (a : ℚ) (e : ℕ) : Prop where
  cap : e ≤ 3
  normal : e < 3 → 1 / 2 ≤ a * 2 ^ e
  below : a * 2 ^ e < 1

theorem Absorbs.lt_one (h : Absorbs a e) (h0 : 0 ≤ a) : a < 1 :=
  (le_mul_of_one_le_right h0 (one_le_pow₀ one_le_two)).trans_lt h.below

theorem exists_absorbs (h1 : a < 1) : ∃ e, Absorbs a e := by
  by_cases h2 : 1 / 2 ≤ a
  · exact ⟨0, by norm_num, fun _ => by linarith, by linarith⟩
  by_cases h4 : 1 / 4 ≤ a
  · exact ⟨1, by norm_num, fun _ => by linarith, by linarith⟩
  by_cases h8 : 1 / 8 ≤ a
  · exact ⟨2, by norm_num, fun _ => by linarith, by linarith⟩
  exact ⟨3, le_rfl, fun h => absurd h (by norm_num), by linarith⟩

/-- The binades of R82, `z` the leading zeros of the fraction. -/
theorem absorbs_of_leadingZeros {z : ℕ} (h0 : 0 ≤ a) (hlo : 1 / 2 ^ (z + 1) ≤ a) (hhi : a < 1 / 2 ^ z) :
    Absorbs a (min z 3) := by
  have hz : (0 : ℚ) < 2 ^ z := by positivity
  refine ⟨min_le_right _ _, fun h => ?_, ?_⟩
  · rw [min_eq_left (by omega)]
    rw [pow_succ, div_le_iff₀ (by positivity)] at hlo
    linarith
  · rw [lt_div_iff₀ hz] at hhi
    have hle : (2 : ℚ) ^ min z 3 ≤ 2 ^ z := pow_le_pow_right₀ one_le_two (min_le_left _ _)
    nlinarith

theorem enc16_below_one (hz : isZero x = false) (h : Absorbs (clippedMagnitude Params.mClip x) e) :
    exponentField (enc16 x) = e ∧
      (mantissaField (enc16 x) : ℤ) =
        roundHalfUp (512 * clippedMagnitude Params.mClip x * 2 ^ e) % 512 := by
  have h0 := clipped16_nonneg x
  obtain ⟨-, he, hm, -⟩ := enc16_fields hz
  rw [he, hm]
  exact magnitude16_below_one h.cap h.normal h0 h.below (h.lt_one h0)

/-! ### From 1 up -/

theorem enc16_from_one (h1 : 1 ≤ clippedMagnitude Params.mClip x) :
    (exponentField (enc16 x) : ℤ) = 8 - ⌊clippedMagnitude Params.mClip x⌋ ∧
      (mantissaField (enc16 x) : ℤ) = 0x100 + roundHalfUp
        (256 * (clippedMagnitude Params.mClip x - ⌊clippedMagnitude Params.mClip x⌋)) % 256 := by
  have hclip := clipped16_le x
  have hz := isZero_of_clipped16_pos (one_pos.trans_le h1)
  obtain ⟨-, he, hm, -⟩ := enc16_fields hz
  obtain ⟨hexp, hmant⟩ := magnitude16_from_one h1
  have hlo : 1 ≤ ⌊clippedMagnitude Params.mClip x⌋ := Int.le_floor.mpr (by exact_mod_cast h1)
  have hhi : ⌊clippedMagnitude Params.mClip x⌋ < 3 :=
    Int.floor_lt.mpr (hclip.trans_lt (by norm_num))
  rw [he, hm]
  exact ⟨by omega, hmant⟩

theorem mantissaField_enc16_of_no_carry (h1 : 1 ≤ clippedMagnitude Params.mClip x)
    (hle : roundHalfUp
      (256 * (clippedMagnitude Params.mClip x - ⌊clippedMagnitude Params.mClip x⌋)) ≤ 255) :
    (mantissaField (enc16 x) : ℤ) = 0x100 + roundHalfUp
      (256 * (clippedMagnitude Params.mClip x - ⌊clippedMagnitude Params.mClip x⌋)) := by
  have hround := roundHalfUp_nonneg
    (y := 256 * (clippedMagnitude Params.mClip x - ⌊clippedMagnitude Params.mClip x⌋))
    (by linarith [Int.floor_le (clippedMagnitude Params.mClip x)])
  obtain ⟨-, hm⟩ := enc16_from_one h1
  omega

/-- Too small for any mantissa bit (R82). -/
theorem enc16_tiny {q : ℚ} (hq : q ≠ 0) (h : |q| < 1 / 2 ^ 13) :
    enc16 (.finite q) = if q < 0 then 0xB000 else 0x3000 := by
  have hz := isZero_finite_of_ne hq
  have ha : clippedMagnitude Params.mClip (.finite q) = |q| := by
    rw [clippedMagnitude_finite, min_eq_left (h.le.trans (by norm_num))]
  obtain ⟨he, hm⟩ := enc16_below_one hz (e := 3)
    (by rw [ha]; exact ⟨le_rfl, fun h => absurd h (lt_irrefl 3), by linarith⟩)
  have hround : roundHalfUp (512 * |q| * 2 ^ 3) = 0 := by
    rw [roundHalfUp_eq_iff]
    have := abs_nonneg q
    push_cast
    constructor <;> linarith
  rw [ha, hround] at hm
  have hm0 : mantissaField (enc16 (.finite q)) = 0 := by exact_mod_cast hm
  have hs := signField_enc16 hz
  split
  next hneg =>
    rw [isNegative_finite.mpr hneg] at hs
    exact code16_ext hs he hm0 (enc16_lowBits _)
  next hneg =>
    rw [Bool.eq_false_iff.mpr (mt isNegative_finite.mp hneg)] at hs
    exact code16_ext hs he hm0 (enc16_lowBits _)

/-- Settles O33. -/
theorem enc16ClosedForm : Obligations.Enc16ClosedForm := by
  refine ⟨?_, ?_, fun q hq h => enc16_tiny hq h, enc16_of_isZero (isZero_iff.mpr rfl)⟩
  · rintro q a z hq rfl - hlo hhi
    have hz := isZero_finite_of_ne hq
    rw [← clippedMagnitude_finite] at hlo hhi ⊢
    have h0 := clipped16_nonneg (.finite q)
    obtain ⟨he, hm⟩ := enc16_below_one hz (absorbs_of_leadingZeros h0 hlo hhi)
    exact ⟨by rw [signField_enc16 hz, isNegative_finite], he, hm, enc16_lowBits _⟩
  · rintro q a rfl h1
    rw [← clippedMagnitude_finite] at h1 ⊢
    have hz := isZero_of_clipped16_pos (one_pos.trans_le h1)
    obtain ⟨he, hm⟩ := enc16_from_one h1
    refine ⟨by rw [signField_enc16 hz, isNegative_finite], he, mantissaField_enc16_of_no_carry h1,
      fun heq => ?_, enc16_lowBits _⟩
    rw [heq] at hm
    exact_mod_cast hm

/-! ### The lost carry -/

theorem absorbs_of_overflow (he : e ≤ 3) (hlo : (1 - 1 / 1024) / 2 ^ e ≤ a) (hhi : a < 1 / 2 ^ e) :
    Absorbs a e := by
  have hpow : (0 : ℚ) < 2 ^ e := by positivity
  rw [div_le_iff₀ hpow] at hlo
  rw [lt_div_iff₀ hpow] at hhi
  exact ⟨he, fun _ => by linarith, hhi⟩

/-- Below 1 a mantissa that rounds to 512 becomes 0, and the exponent stays (R81). -/
theorem enc16_overflow_below_one (he : e ≤ 3)
    (hlo : (1 - 1 / 1024) / 2 ^ e ≤ clippedMagnitude Params.mClip x)
    (hhi : clippedMagnitude Params.mClip x < 1 / 2 ^ e) :
    exponentField (enc16 x) = e ∧ mantissaField (enc16 x) = 0 := by
  have hpow : (0 : ℚ) < 2 ^ e := by positivity
  have habs := absorbs_of_overflow he hlo hhi
  have hpos : 0 < clippedMagnitude Params.mClip x := (div_pos (by norm_num) hpow).trans_le hlo
  obtain ⟨hexp, hm⟩ := enc16_below_one (isZero_of_clipped16_pos hpos) habs
  have hround : roundHalfUp (512 * clippedMagnitude Params.mClip x * 2 ^ e) = 512 := by
    rw [roundHalfUp_eq_iff]
    rw [div_le_iff₀ hpow] at hlo
    have := habs.below
    push_cast
    constructor <;> linarith
  rw [hround] at hm
  exact ⟨hexp, by exact_mod_cast hm⟩

/-- From 1 up a fraction that rounds to 256 becomes 0: what is left is the integer part (R81). -/
theorem enc16_overflow_from_one {n : ℕ} (hn : 1 ≤ n)
    (hlo : (n : ℚ) + 511 / 512 ≤ clippedMagnitude Params.mClip x)
    (hhi : clippedMagnitude Params.mClip x < n + 1) :
    exponentField (enc16 x) = 8 - n ∧ mantissaField (enc16 x) = 0x100 := by
  have hn' : (1 : ℚ) ≤ n := by exact_mod_cast hn
  have hfloor : ⌊clippedMagnitude Params.mClip x⌋ = (n : ℤ) := by
    rw [Int.floor_eq_iff]
    push_cast
    constructor <;> linarith
  obtain ⟨he, hm⟩ := enc16_from_one (x := x) (by linarith)
  rw [hfloor] at he hm
  have hround : roundHalfUp (256 * (clippedMagnitude Params.mClip x - (n : ℤ))) = 256 := by
    rw [roundHalfUp_eq_iff]
    push_cast
    constructor <;> linarith
  rw [hround] at hm
  exact ⟨by omega, by exact_mod_cast hm⟩

/-- An integer part alone: no fraction bit is set. -/
theorem enc16_natCast {n : ℕ} (hn : 1 ≤ n) (hclip : (n : ℚ) ≤ Params.mClip) :
    exponentField (enc16 (.finite n)) = 8 - n ∧ mantissaField (enc16 (.finite n)) = 0x100 := by
  have ha := clippedMagnitude_of_le (Nat.cast_nonneg n) hclip
  obtain ⟨he, hm⟩ := enc16_from_one (x := .finite n) (by rw [ha]; exact_mod_cast hn)
  have hround : roundHalfUp 0 = 0 := by decide +kernel
  rw [ha, Int.floor_natCast] at he hm
  rw [Int.cast_natCast, sub_self, mul_zero, hround] at hm
  exact ⟨by omega, by exact_mod_cast hm⟩

theorem enc16_overflow_eq_natCast {n : ℕ} (hn : 1 ≤ n) (hlo : (n : ℚ) + 511 / 512 ≤ a)
    (hhi : a < n + 1) (hclip : a ≤ Params.mClip) : enc16 (.finite a) = enc16 (.finite n) := by
  have hn' : (1 : ℚ) ≤ n := by exact_mod_cast hn
  have ha : clippedMagnitude Params.mClip (.finite a) = a := clippedMagnitude_of_le (by linarith) hclip
  obtain ⟨hea, hma⟩ := enc16_overflow_from_one (x := .finite a) hn (by rwa [ha]) (by rwa [ha])
  obtain ⟨hen, hmn⟩ := enc16_natCast hn (by linarith)
  have hpos : ∀ q : ℚ, 1 ≤ q → signField (enc16 (.finite q)) = false := by
    intro q hq
    rw [signField_enc16 (isZero_finite_of_ne (by linarith))]
    exact Bool.eq_false_iff.mpr (mt isNegative_finite.mp (by linarith))
  exact code16_ext ((hpos a (by linarith)).trans (hpos n hn').symm) (hea.trans hen.symm)
    (hma.trans hmn.symm) ((enc16_lowBits _).trans (enc16_lowBits _).symm)

/-- Settles O34. -/
theorem enc16OverflowSets : Obligations.Enc16OverflowSets := by
  refine ⟨fun e a hlo hhi => ?_, fun a hlo hhi => ?_, fun a hlo hhi => ?_⟩
  · have h0 : 0 ≤ a := (div_nonneg (by norm_num) (by positivity)).trans hlo
    have h1 := (absorbs_of_overflow (by omega) hlo hhi).lt_one h0
    have ha : clippedMagnitude Params.mClip (.finite a) = a :=
      clippedMagnitude_of_le h0 (h1.le.trans (by norm_num))
    exact enc16_overflow_below_one (by omega) (by rwa [ha]) (by rwa [ha])
  · have h := enc16_overflow_eq_natCast (n := 1) (a := a) le_rfl (by push_cast; linarith)
      (by push_cast; linarith) (by norm_num; linarith)
    exact_mod_cast h
  · have h := enc16_overflow_eq_natCast (n := 2) (a := a) (by norm_num) (by push_cast; linarith)
      (by push_cast; linarith) hhi
    exact_mod_cast h

end Sys2Proof.Machine
end

section
/-! PROOF. What the coefficient encoders keep of a value (R83 to R86): the sign, the clip codes, the magnitude
within a step, and the order of magnitudes. -/

namespace Sys2Proof.Machine

variable {x : FloatVal} {a b : ℚ} {e k : ℕ}

/-! ### Sign symmetry -/

theorem code16_flipSign (c : Code16) :
    signField (c ^^^ 0x8000#16) = !signField c ∧ exponentField (c ^^^ 0x8000#16) = exponentField c
      ∧ mantissaField (c ^^^ 0x8000#16) = mantissaField c
      ∧ (c ^^^ 0x8000#16).extractLsb' 0 3 = c.extractLsb' 0 3 := by
  refine ⟨?_, ?_, ?_, ?_⟩
  · rw [signField, BitVec.getLsbD_xor]
    exact Bool.xor_true _
  · rw [exponentField, BitVec.extractLsb'_xor]
    exact congrArg BitVec.toNat BitVec.xor_zero
  · rw [mantissaField, BitVec.extractLsb'_xor]
    exact congrArg BitVec.toNat BitVec.xor_zero
  · rw [BitVec.extractLsb'_xor]
    exact BitVec.xor_zero

theorem enc16_negVal (hz : isZero x = false) : enc16 (negVal x) = enc16 x ^^^ 0x8000#16 := by
  have hz' : isZero (negVal x) = false := (isZero_negVal x).trans hz
  obtain ⟨hs, he, hm, hlow⟩ := enc16_fields hz
  obtain ⟨hs', he', hm', hlow'⟩ := enc16_fields hz'
  obtain ⟨fs, fe, fm, flow⟩ := code16_flipSign (enc16 x)
  rw [clippedMagnitude_negVal] at he' hm'
  refine code16_ext ?_ ?_ ?_ ?_
  · rw [hs', fs, hs, isNegative_negVal hz]
  · rw [he', fe, he]
  · rw [hm', fm, hm]
  · rw [hlow', flow, hlow]

/-- Settles O35. -/
theorem coefficientSignSymmetry : Obligations.CoefficientSignSymmetry :=
  ⟨enc12_negVal, fun _ hx => enc16_negVal (Bool.eq_false_iff.mpr (mt isZero_iff.mp hx)),
    rfl, enc16_of_isZero (isZero_iff.mpr rfl)⟩

/-! ### Clipping -/

theorem enc16_infinite : enc16 (.infinite false) = 0x6800 ∧ enc16 (.infinite true) = 0xE800 := by
  decide +kernel

theorem enc16_of_clip_le {q : ℚ} (h : Params.mClip ≤ |q|) :
    enc16 (.finite q) = enc16 (.infinite (decide (q < 0))) := by
  have hq : q ≠ 0 := by
    rintro rfl
    norm_num at h
  simp only [enc16, isZero_finite_of_ne hq, clippedMagnitude_of_clip_le h (decide (q < 0))]
  rfl

/-- Settles O36. -/
theorem coefficientClipping : Obligations.CoefficientClipping := by
  obtain ⟨hpos12, hneg12⟩ := enc12_infinite
  obtain ⟨hpos16, hneg16⟩ := enc16_infinite
  refine ⟨fun q hq => ?_, fun q hq => ?_, fun q hq => ?_, fun q hq => ?_, hpos12, hneg12, hpos16, hneg16⟩
  · rw [enc12_of_clip_le (hq.trans (le_abs_self q)), decide_eq_false (by linarith), hpos12]
  · rw [enc12_of_clip_le (le_abs.mpr (.inr (le_neg_of_le_neg hq))), decide_eq_true (by linarith), hneg12]
  · rw [enc16_of_clip_le (hq.trans (le_abs_self q)), decide_eq_false (by linarith), hpos16]
  · rw [enc16_of_clip_le (le_abs.mpr (.inr (le_neg_of_le_neg hq))), decide_eq_true (by linarith), hneg16]

/-! ### The decoded magnitude of a `code16` -/

theorem abs_signFactor (s : Bool) : |signFactor s| = 1 := by
  cases s <;> simp [signFactor]

theorem dec16_below_one {c : Code16} (h : exponentField c ≤ 3) :
    ∃ d, dec16 c = some d ∧ |d| = (mantissaField c : ℚ) / 512 * (1 / 2 ^ exponentField c) := by
  refine ⟨signFactor (signField c) * ((mantissaField c : ℚ) / 512) * (1 / 2 ^ exponentField c), ?_, ?_⟩
  · unfold dec16
    interval_cases exponentField c <;> rfl
  · rw [mul_assoc, abs_mul, abs_signFactor, one_mul, abs_of_nonneg (by positivity)]

theorem dec16_from_one {c : Code16} {n : ℕ} (hn : n = 1 ∨ n = 2) (h : exponentField c = 8 - n) :
    ∃ d, dec16 c = some d ∧ |d| = n + ((mantissaField c % 256 : ℕ) : ℚ) / 256 := by
  refine ⟨signFactor (signField c) * (n + ((mantissaField c % 256 : ℕ) : ℚ) / 256), ?_, ?_⟩
  · unfold dec16
    rcases hn with rfl | rfl
    · rw [h, Nat.cast_one]; rfl
    · rw [h, Nat.cast_ofNat]; rfl
  · rw [abs_mul, abs_signFactor, one_mul, abs_of_nonneg (by positivity)]

/-! ### Inside the overflow sets -/

theorem inOverflowSet_iff : inOverflowSet a = true ↔
    (∃ e : Fin 4, (1 - 1 / 1024) / 2 ^ (e : ℕ) ≤ a ∧ a < 1 / 2 ^ (e : ℕ))
      ∨ ((1023 : ℚ) / 512 ≤ a ∧ a < 2) ∨ ((1535 : ℚ) / 512 ≤ a ∧ a ≤ Params.mClip) :=
  decide_eq_true_iff

theorem enc16_roundTrip_overflow_from_one {n : ℕ} (hn : n = 1 ∨ n = 2)
    (hlo : (n : ℚ) + 511 / 512 ≤ clippedMagnitude Params.mClip x)
    (hhi : clippedMagnitude Params.mClip x < n + 1) :
    ∃ d, dec16 (enc16 x) = some d ∧ 1 / 2 ^ 9 < |clippedMagnitude Params.mClip x - (|d|)| := by
  obtain ⟨he, hm⟩ := enc16_overflow_from_one (by omega) hlo hhi
  obtain ⟨d, hd, habs⟩ := dec16_from_one hn he
  refine ⟨d, hd, lt_abs.mpr (.inl ?_)⟩
  rw [habs, hm]
  norm_num
  linarith

/-- With the carry a whole mantissa or a whole fraction is lost (R81, R85). -/
theorem enc16_roundTrip_overflow (h : inOverflowSet (clippedMagnitude Params.mClip x) = true) :
    ∃ d, dec16 (enc16 x) = some d ∧ 1 / 2 ^ 9 < |clippedMagnitude Params.mClip x - (|d|)| := by
  rcases inOverflowSet_iff.mp h with ⟨e, hlo, hhi⟩ | ⟨hlo, hhi⟩ | ⟨hlo, hhi⟩
  · obtain ⟨he, hm⟩ := enc16_overflow_below_one (by omega) hlo hhi
    obtain ⟨d, hd, habs⟩ := dec16_below_one (c := enc16 x) (by omega)
    have hstart : ∀ e : Fin 4, (1 : ℚ) / 2 ^ 9 < (1 - 1 / 1024) / 2 ^ (e : ℕ) := by decide +kernel
    refine ⟨d, hd, lt_abs.mpr (.inl ?_)⟩
    rw [habs, hm, Nat.cast_zero, zero_div, zero_mul, sub_zero]
    exact (hstart e).trans_le hlo
  · exact enc16_roundTrip_overflow_from_one (n := 1) (.inl rfl) (by push_cast; linarith)
      (by push_cast; linarith)
  · exact enc16_roundTrip_overflow_from_one (n := 2) (.inr rfl) (by push_cast; linarith)
      (by push_cast; exact hhi.trans_lt (by norm_num))

/-! ### Outside the overflow sets -/

/-- How many bits behind the binary point a code with exponent `e` keeps: its nine mantissa bits after the
absorbed zeros, or its eight fraction bits from 1 up (R54). -/
def fractionBits (e : ℕ) : ℕ := if e ≤ 3 then 9 + e else 8

/-- The magnitude rounded half up to `k` bits behind the binary point. -/
def roundedTo (k : ℕ) (a : ℚ) : ℚ := roundHalfUp (2 ^ k * a) / 2 ^ k

theorem roundedTo_near (k : ℕ) (a : ℚ) : |a - roundedTo k a| ≤ 1 / 2 ^ (k + 1) := by
  obtain ⟨hlo, hhi⟩ := roundHalfUp_near (2 ^ k * a)
  have hpow : (0 : ℚ) < 2 ^ k := by positivity
  have hscale : a - roundedTo k a = (2 ^ k * a - roundHalfUp (2 ^ k * a)) / 2 ^ k := by
    unfold roundedTo
    field_simp
  have hstep : (1 : ℚ) / 2 ^ (k + 1) = 1 / 2 / 2 ^ k := by
    rw [pow_succ]
    field_simp
  rw [hscale, hstep, abs_div, abs_of_pos hpow]
  gcongr
  rw [abs_le]
  constructor <;> linarith

theorem roundHalfUp_le_of_no_overflow_below_one (h : Absorbs a e) (hov : inOverflowSet a = false) :
    roundHalfUp (512 * a * 2 ^ e) ≤ 511 := by
  have hpow : (0 : ℚ) < 2 ^ e := by positivity
  have hlt : a < (1 - 1 / 1024) / 2 ^ e := by
    by_contra hge
    have hin : inOverflowSet a = true := inOverflowSet_iff.mpr
      (.inl ⟨⟨e, Nat.lt_succ_of_le h.cap⟩, not_lt.mp hge, (lt_div_iff₀ hpow).mpr h.below⟩)
    exact Bool.false_ne_true (hov.symm.trans hin)
  rw [lt_div_iff₀ hpow] at hlt
  rw [roundHalfUp_le_iff]
  push_cast
  linarith

theorem floor_of_one_le (h1 : 1 ≤ a) (hclip : a ≤ Params.mClip) :
    ∃ n : ℕ, (n = 1 ∨ n = 2) ∧ ⌊a⌋ = n ∧ (n : ℚ) ≤ a ∧ a < n + 1 := by
  rcases lt_or_ge a 2 with h2 | h2
  · exact ⟨1, .inl rfl, Int.floor_eq_iff.mpr (by push_cast; constructor <;> linarith), by simpa using h1,
      by push_cast; linarith⟩
  · have h3 : a < 3 := hclip.trans_lt (by norm_num)
    exact ⟨2, .inr rfl, Int.floor_eq_iff.mpr (by push_cast; constructor <;> linarith), by simpa using h2,
      by push_cast; linarith⟩

theorem roundHalfUp_le_of_no_overflow_from_one {n : ℕ} (hn : n = 1 ∨ n = 2) (hhi : a < n + 1)
    (hclip : a ≤ Params.mClip) (hov : inOverflowSet a = false) : roundHalfUp (256 * (a - n)) ≤ 255 := by
  have hlt : a < n + 511 / 512 := by
    by_contra hge
    have hin : inOverflowSet a = true := by
      refine inOverflowSet_iff.mpr (.inr ?_)
      rcases hn with rfl | rfl
      · exact .inl (by push_cast at hge hhi; constructor <;> linarith)
      · exact .inr ⟨by push_cast at hge; linarith, hclip⟩
    exact Bool.false_ne_true (hov.symm.trans hin)
  rw [roundHalfUp_le_iff]
  push_cast
  linarith

theorem abs_dec16_enc16_below_one (hz : isZero x = false) (hlt : clippedMagnitude Params.mClip x < 1)
    (hov : inOverflowSet (clippedMagnitude Params.mClip x) = false) :
    ∃ d, dec16 (enc16 x) = some d
      ∧ |d| = roundedTo (fractionBits (exponentField (enc16 x))) (clippedMagnitude Params.mClip x) := by
  obtain ⟨e, h⟩ := exists_absorbs hlt
  obtain ⟨he, hm⟩ := enc16_below_one hz h
  have hround := roundHalfUp_le_of_no_overflow_below_one h hov
  have hnonneg : 0 ≤ roundHalfUp (512 * clippedMagnitude Params.mClip x * 2 ^ e) :=
    roundHalfUp_nonneg (mul_nonneg (mul_nonneg (by norm_num) (clipped16_nonneg x)) (by positivity))
  rw [Int.emod_eq_of_lt hnonneg (by omega)] at hm
  obtain ⟨d, hd, habs⟩ := dec16_below_one (c := enc16 x) (he.trans_le h.cap)
  refine ⟨d, hd, ?_⟩
  have hscale : (2 : ℚ) ^ (9 + e) * clippedMagnitude Params.mClip x =
      512 * clippedMagnitude Params.mClip x * 2 ^ e := by ring
  rw [habs, he, fractionBits, if_pos h.cap, roundedTo, hscale, ← hm, Int.cast_natCast, pow_add]
  field_simp
  norm_num

theorem abs_dec16_enc16_from_one (h1 : 1 ≤ clippedMagnitude Params.mClip x)
    (hov : inOverflowSet (clippedMagnitude Params.mClip x) = false) :
    ∃ d, dec16 (enc16 x) = some d
      ∧ |d| = roundedTo (fractionBits (exponentField (enc16 x))) (clippedMagnitude Params.mClip x) := by
  obtain ⟨n, hn, hfloor, hlo, hhi⟩ := floor_of_one_le h1 (clipped16_le x)
  have hround := roundHalfUp_le_of_no_overflow_from_one hn hhi (clipped16_le x) hov
  have hnonneg : 0 ≤ roundHalfUp (256 * (clippedMagnitude Params.mClip x - n)) :=
    roundHalfUp_nonneg (by linarith)
  have hm := mantissaField_enc16_of_no_carry h1 (by rw [hfloor]; exact hround)
  obtain ⟨he, -⟩ := enc16_from_one h1
  rw [hfloor] at he hm
  rw [Int.cast_natCast] at hm
  have hfrac : ((mantissaField (enc16 x) % 256 : ℕ) : ℤ) =
      roundHalfUp (256 * (clippedMagnitude Params.mClip x - n)) := by omega
  obtain ⟨d, hd, habs⟩ := dec16_from_one (c := enc16 x) hn (by omega)
  refine ⟨d, hd, ?_⟩
  have hscale : (2 : ℚ) ^ 8 * clippedMagnitude Params.mClip x =
      256 * (clippedMagnitude Params.mClip x - n) + ((256 * n : ℤ) : ℚ) := by
    push_cast
    ring
  rw [habs, fractionBits, if_neg (by omega), roundedTo, hscale, roundHalfUp_add_intCast, ← hfrac]
  generalize mantissaField (enc16 x) % 256 = m
  push_cast
  ring

/-- With no carry the decoded magnitude is the clipped magnitude, rounded to the bits that the code keeps. -/
theorem abs_dec16_enc16 (hov : inOverflowSet (clippedMagnitude Params.mClip x) = false) :
    ∃ d, dec16 (enc16 x) = some d
      ∧ |d| = roundedTo (fractionBits (exponentField (enc16 x))) (clippedMagnitude Params.mClip x) := by
  cases hz : isZero x with
  | true =>
    obtain rfl := isZero_iff.mp hz
    exact ⟨0, by decide +kernel, by decide +kernel⟩
  | false =>
    rcases lt_or_ge (clippedMagnitude Params.mClip x) 1 with hlt | h1
    · exact abs_dec16_enc16_below_one hz hlt hov
    · exact abs_dec16_enc16_from_one h1 hov

/-- Settles O38. -/
theorem coefficientRoundTripBound : Obligations.CoefficientRoundTripBound := by
  refine ⟨enc12_roundTrip, fun x h => enc16_roundTrip_overflow h, fun x h => ?_⟩
  obtain ⟨d, hd, habs⟩ := abs_dec16_enc16 h
  have hnear := roundedTo_near (fractionBits (exponentField (enc16 x))) (clippedMagnitude Params.mClip x)
  rw [← habs] at hnear
  refine ⟨d, hd, fun he => ?_, fun he => ?_⟩
  · have hbits : 9 + exponentField (enc16 x) + 1 = 10 + exponentField (enc16 x) := by omega
    rw [fractionBits, if_pos he, hbits, pow_add, ← one_div_mul_one_div] at hnear
    exact hnear
  · rw [fractionBits, if_neg (by omega)] at hnear
    exact hnear

/-! ### Monotonicity -/

/-- `a` lies where `k` bits behind the binary point are kept: from 1 up 8 of them, below 1 as many as the
leading zeros of `a` leave, at most 12. -/
structure KeepsBits (a : ℚ) (k : ℕ) : Prop where
  least : 8 ≤ k
  most : k ≤ 12
  normal : k < 12 → 256 ≤ 2 ^ k * a
  below : 8 < k → 2 ^ k * a < 512

theorem keepsBits_enc16 (hz : isZero x = false) :
    KeepsBits (clippedMagnitude Params.mClip x) (fractionBits (exponentField (enc16 x))) := by
  rcases lt_or_ge (clippedMagnitude Params.mClip x) 1 with hlt | h1
  · obtain ⟨e, h⟩ := exists_absorbs hlt
    obtain ⟨he, -⟩ := enc16_below_one hz h
    have hcap := h.cap
    have hbelow := h.below
    have hscale : (2 : ℚ) ^ (9 + e) * clippedMagnitude Params.mClip x =
        512 * (clippedMagnitude Params.mClip x * 2 ^ e) := by ring
    rw [he, fractionBits, if_pos hcap]
    refine ⟨by omega, by omega, fun hk => ?_, fun _ => by linarith⟩
    have hnormal := h.normal (by omega)
    linarith
  · obtain ⟨n, hn, hfloor, -, -⟩ := floor_of_one_le h1 (clipped16_le x)
    obtain ⟨he, -⟩ := enc16_from_one h1
    rw [fractionBits, if_neg (by omega)]
    exact ⟨le_rfl, by norm_num, fun _ => by linarith, fun h => absurd h (lt_irrefl 8)⟩

/-- A larger magnitude keeps fewer bits or as many. -/
theorem KeepsBits.antitone {l : ℕ} (ha : KeepsBits a k) (hb : KeepsBits b l) (h0 : 0 ≤ a)
    (hab : a ≤ b) : l ≤ k := by
  by_contra! hlt
  have hnormal := ha.normal (hlt.trans_le hb.most)
  have hbelow := hb.below (ha.least.trans_lt hlt)
  have hpow : (2 : ℚ) ^ (k + 1) ≤ 2 ^ l := pow_le_pow_right₀ one_le_two hlt
  have hmul : 2 ^ (k + 1) * a ≤ 2 ^ l * b := mul_le_mul hpow hab h0 (by positivity)
  rw [pow_succ] at hmul
  linarith

/-- Between places that keep different numbers of bits lies a power of two, which rounding does not cross. -/
theorem roundedTo_mono {l : ℕ} (ha : KeepsBits a k) (hb : KeepsBits b l) (h0 : 0 ≤ a) (hab : a ≤ b) :
    roundedTo k a ≤ roundedTo l b := by
  rcases (ha.antitone hb h0 hab).eq_or_lt with rfl | hlt
  · have hle : roundHalfUp (2 ^ l * a) ≤ roundHalfUp (2 ^ l * b) := roundHalfUp_mono (by gcongr)
    unfold roundedTo
    gcongr
  · have hbelow := ha.below (hb.least.trans_lt hlt)
    have hnormal := hb.normal (hlt.trans_le ha.most)
    have hupper : roundHalfUp (2 ^ k * a) ≤ 512 := (roundHalfUp_le_iff _ _).mpr (by push_cast; linarith)
    have hlower : 256 ≤ roundHalfUp (2 ^ l * b) := (le_roundHalfUp_iff _ _).mpr (by push_cast; linarith)
    have hpow : (2 : ℚ) ^ (l + 1) ≤ 2 ^ k := pow_le_pow_right₀ one_le_two hlt
    calc (roundHalfUp (2 ^ k * a) : ℚ) / 2 ^ k ≤ 512 / 2 ^ k := by gcongr; exact_mod_cast hupper
      _ ≤ 512 / 2 ^ (l + 1) := by gcongr
      _ = 256 / 2 ^ l := by rw [pow_succ]; field_simp; norm_num
      _ ≤ roundHalfUp (2 ^ l * b) / 2 ^ l := by gcongr; exact_mod_cast hlower

theorem clipped16_of_pos {q : ℚ} (h : 0 < q) :
    clippedMagnitude Params.mClip (.finite q) = min q (2999 / 1000) := by
  rw [clippedMagnitude_finite, abs_of_pos h]

theorem abs_dec16_enc16_mono (ha : 0 < a) (hab : a ≤ b) (hova : inOverflowSet (min a (2999 / 1000)) = false)
    (hovb : inOverflowSet (min b (2999 / 1000)) = false) :
    ∃ d e, dec16 (enc16 (.finite a)) = some d ∧ dec16 (enc16 (.finite b)) = some e ∧ |d| ≤ |e| := by
  have hb := ha.trans_le hab
  rw [← clipped16_of_pos ha] at hova
  rw [← clipped16_of_pos hb] at hovb
  obtain ⟨d, hd, hda⟩ := abs_dec16_enc16 hova
  obtain ⟨e, he, heb⟩ := abs_dec16_enc16 hovb
  refine ⟨d, e, hd, he, ?_⟩
  rw [hda, heb]
  refine roundedTo_mono (keepsBits_enc16 (isZero_finite_of_ne ha.ne'))
    (keepsBits_enc16 (isZero_finite_of_ne hb.ne')) (clipped16_nonneg _) ?_
  rw [clipped16_of_pos ha, clipped16_of_pos hb]
  exact min_le_min_right _ hab

/-- Settles O39: the largest inputs below 1 lose their carry, and 1/2 does not. -/
theorem coefficientMonotonicity : Obligations.CoefficientMonotonicity :=
  ⟨fun _ _ ha hab => enc12_mono ha hab,
    ⟨1 / 2, 2047 / 2048, 1 / 2, 0, by norm_num, by norm_num, by decide +kernel, by decide +kernel,
      by decide +kernel, by norm_num⟩,
    fun _ _ => abs_dec16_enc16_mono⟩

end Sys2Proof.Machine
end

section
/-! PROOF. The offset encoder: what `ENCO` makes of `OPF` (R90), the closed form of `enc13` (R92), and what
follows from it: monotonicity (R93) and the use of all 13 bits (R94). -/

namespace Sys2Proof.Machine

variable {a b : ℚ}

/-- Settles O41. -/
theorem encoWritesRes : Obligations.EncoWritesRes :=
  ⟨fun v => decode_encode (.enco v), by decide +kernel, fun _ _ hw =>
    ⟨fun _ hx => encodeOpf_of_value enc13 hw hx, fun hx => encodeOpf_of_nan enc13 hw hx⟩⟩

/-! ### The closed form -/

theorem magnitude13_clipped_eq_round (x : FloatVal) :
    (magnitude13 (clippedMagnitude Params.oClip x) : ℤ) = roundHalfUp (8192 * clippedMagnitude Params.oClip x)
      ∧ magnitude13 (clippedMagnitude Params.oClip x) ≤ 8184 := by
  obtain ⟨h0, h⟩ := clippedMagnitude_mem (clip := Params.oClip) (by norm_num) x
  exact magnitude13_eq_round h0 h

theorem magnitude13_finite (q : ℚ) :
    (magnitude13 (clippedMagnitude Params.oClip (.finite q)) : ℤ) =
      roundHalfUp (8192 * min |q| (999 / 1000)) := by
  rw [(magnitude13_clipped_eq_round _).1, clippedMagnitude_finite]

theorem magnitude13_of_isZero {x : FloatVal} (hz : isZero x = true) :
    magnitude13 (clippedMagnitude Params.oClip x) = 0 := by
  rw [clippedMagnitude_of_isZero (by norm_num) hz]
  decide +kernel

/-- The magnitude code for `x ≥ 0`, and its complement in 13 bits for `x < 0`; zero needs no case of its own
(R92). -/
theorem enc13_toNat (x : FloatVal) :
    (enc13 x).toNat =
      if isNegative x then (2 ^ 13 - magnitude13 (clippedMagnitude Params.oClip x)) % 2 ^ 13
      else magnitude13 (clippedMagnitude Params.oClip x) := by
  cases hz : isZero x with
  | true =>
    rw [magnitude13_of_isZero hz, isZero_iff.mp hz]
    rfl
  | false =>
    obtain ⟨-, hm⟩ := magnitude13_clipped_eq_round x
    have hmod : magnitude13 (clippedMagnitude Params.oClip x) % 2 ^ 13 =
        magnitude13 (clippedMagnitude Params.oClip x) := Nat.mod_eq_of_lt (by omega)
    rw [enc13, if_neg (Bool.eq_false_iff.mp hz)]
    dsimp only
    split
    · rw [negWord_toNat, BitVec.toNat_ofNat, hmod]
    · rw [BitVec.toNat_ofNat, hmod]

theorem enc13_of_nonneg (h : 0 ≤ a) :
    ((enc13 (.finite a)).toNat : ℤ) = roundHalfUp (8192 * min |a| (999 / 1000)) := by
  rw [enc13_toNat, if_neg (by rw [isNegative_finite]; exact not_lt.mpr h), magnitude13_finite]

theorem enc13_of_neg (h : a < 0) :
    ((enc13 (.finite a)).toNat : ℤ) = (8192 - roundHalfUp (8192 * min |a| (999 / 1000))) % 8192 := by
  obtain ⟨-, hm⟩ := magnitude13_clipped_eq_round (.finite a)
  rw [enc13_toNat, if_pos (isNegative_finite.mpr h), ← magnitude13_finite]
  omega

/-- Settles O42. -/
theorem enc13ClosedForm : Obligations.Enc13ClosedForm := by
  refine ⟨fun _ => enc13_of_nonneg, fun _ => enc13_of_neg, fun q => ?_, by decide +kernel, by decide +kernel⟩
  obtain ⟨-, hm⟩ := magnitude13_clipped_eq_round (.finite q)
  rw [← magnitude13_finite]
  omega

/-! ### Monotonicity -/

/-- Inputs a step apart lie a whole unit apart before rounding. -/
theorem roundHalfUp_lt_of_step (h : 1 / 2 ^ 13 ≤ b - a) : roundHalfUp (8192 * a) < roundHalfUp (8192 * b) := by
  have hstep : 8192 * a + ((1 : ℤ) : ℚ) ≤ 8192 * b := by
    push_cast
    linarith
  have hmono := roundHalfUp_mono hstep
  rw [roundHalfUp_add_intCast] at hmono
  omega

theorem enc13_of_le_clip (h0 : 0 ≤ a) (h : a ≤ 999 / 1000) :
    ((enc13 (.finite a)).toNat : ℤ) = roundHalfUp (8192 * a) := by
  rw [enc13_of_nonneg h0, abs_of_nonneg h0, min_eq_left h]

/-- Settles O43. -/
theorem offsetMonotonicity : Obligations.OffsetMonotonicity := by
  intro a b ha hab hb
  rw [← Int.ofNat_le, ← Int.ofNat_lt, enc13_of_le_clip ha (hab.trans hb), enc13_of_le_clip (ha.trans hab) hb]
  exact ⟨roundHalfUp_mono (by gcongr), roundHalfUp_lt_of_step⟩

/-! ### All 13 bits -/

theorem enc13_bit12_of_half_le (h : 1 / 2 ≤ a) : (enc13 (.finite a)).getLsbD 12 = true := by
  have hround : 4096 ≤ roundHalfUp (8192 * min |a| (999 / 1000)) := by
    have hmin : 1 / 2 ≤ min |a| (999 / 1000) := le_min (h.trans (le_abs_self a)) (by norm_num)
    rw [le_roundHalfUp_iff]
    push_cast
    linarith
  rw [← enc13_of_nonneg (by linarith)] at hround
  rw [← BitVec.msb_eq_getLsbD_last, BitVec.msb_eq_decide]
  exact decide_eq_true (by omega)

theorem enc13_negVal (x : FloatVal) : enc13 (negVal x) = negWord (enc13 x) := by
  refine BitVec.eq_of_toNat_eq ?_
  rw [negWord_toNat, enc13_toNat, enc13_toNat, clippedMagnitude_negVal]
  cases hz : isZero x with
  | true => simp [magnitude13_of_isZero hz]
  | false =>
    obtain ⟨-, hm⟩ := magnitude13_clipped_eq_round x
    rw [isNegative_negVal hz]
    cases isNegative x with
    | false => rfl
    | true =>
      simp only [Bool.not_true, Bool.false_eq_true, if_false, if_true]
      omega

/-- Settles O44. -/
theorem offsetUsesAllThirteenBits : Obligations.OffsetUsesAllThirteenBits :=
  ⟨fun _ => enc13_bit12_of_half_le, enc13_negVal, by decide +kernel, by decide +kernel⟩

end Sys2Proof.Machine
end

section
/-! PROOF. The register packer: what a pack makes of nine written codes (R100, R103), and the words of the two
layouts as numbers (R101, R102). -/

namespace Sys2Proof.Machine

variable {s : State}

/-- A pack of nine written codes writes the six words of its layout and nothing else. -/
theorem packCodeIn_of_written (layout : Vector Code16 9 → Vector Word 6)
    (hw : ∀ i : Fin 9, s.codeIn[i].written = true) :
    packCodeIn layout s =
      .next (s.setCoeffWords (layout (Vector.ofFn fun i => s.codeIn[i].value))) :=
  (packCodeIn_next layout).mpr ⟨(allWritten_iff _).mpr hw, rfl⟩

theorem packL_toNat (codes : Vector Code16 9) :
    (packL codes)[0].toNat = codes[1].toNat * 2 ^ 16 + codes[0].toNat
      ∧ (packL codes)[1].toNat = codes[2].toNat
      ∧ (packL codes)[2].toNat = codes[4].toNat * 2 ^ 16 + codes[3].toNat
      ∧ (packL codes)[3].toNat = codes[5].toNat
      ∧ (packL codes)[4].toNat = codes[7].toNat * 2 ^ 16 + codes[6].toNat
      ∧ (packL codes)[5].toNat = codes[8].toNat :=
  ⟨pairWord_toNat _ _, lowWord_toNat _, pairWord_toNat _ _, lowWord_toNat _, pairWord_toNat _ _,
    lowWord_toNat _⟩

theorem packM_toNat (codes : Vector Code16 9) :
    (packM codes)[0].toNat = codes[0].toNat * 2 ^ 16 + codes[1].toNat
      ∧ (packM codes)[1].toNat = codes[2].toNat * 2 ^ 16
      ∧ (packM codes)[2].toNat = codes[3].toNat * 2 ^ 16 + codes[4].toNat
      ∧ (packM codes)[3].toNat = codes[5].toNat * 2 ^ 16
      ∧ (packM codes)[4].toNat = codes[6].toNat * 2 ^ 16 + codes[7].toNat
      ∧ (packM codes)[5].toNat = codes[8].toNat * 2 ^ 16 :=
  ⟨pairWord_toNat _ _, highWord_toNat _, pairWord_toNat _ _, highWord_toNat _, pairWord_toNat _ _,
    highWord_toNat _⟩

/-- Settles O45. -/
theorem packLWritesWords : Obligations.PackLWritesWords := by
  refine ⟨decode_encode .packL, fun s hw => ⟨_, packCodeIn_of_written packL hw, ?_⟩⟩
  simpa only [Vector.getElem_ofFn, Fin.getElem_fin] using packL_toNat (Vector.ofFn fun i => s.codeIn[i].value)

/-- Settles O46: the command is the same pack under both words. -/
theorem packMWritesWords : Obligations.PackMWritesWords := by
  refine ⟨⟨decode_encode (.packM .a), decode_encode (.packM .b)⟩,
    fun _ s hw => ⟨_, packCodeIn_of_written packM hw, ?_⟩⟩
  simpa only [Vector.getElem_ofFn, Fin.getElem_fin] using packM_toNat (Vector.ofFn fun i => s.codeIn[i].value)

end Sys2Proof.Machine
end

section
/-! PROOF. The parameter builder: the whole state that a completed `BUILD` answers (R110, R112 to R117), when it is
refused for a NaN pattern (R118), and that its words are those of the unit operations (R120). -/

namespace Sys2Proof.Machine

variable {s t : State} {v : Variant}

/-! ### The gates of the stages -/

theorem offsetStageRuns_iff :
    offsetStageRuns v s = true ↔ v ≠ .legacyFamily ∧ s.validIn.value.getLsbD 1 = true := by
  rw [offsetStageRuns, Bool.and_eq_true, offsetsValid_eq]
  cases v <;> simp [isModern]

theorem offsetStageRuns_modern (hm : isModern v = true) :
    offsetStageRuns v s = s.validIn.value.getLsbD 1 := by
  rw [offsetStageRuns, hm, Bool.true_and, offsetsValid_eq]

theorem modeStageRuns_modern (hm : isModern v = true) :
    modeStageRuns v s = s.validIn.value.getLsbD 2 := by
  rw [modeStageRuns, hm, Bool.true_and, modeValid_eq]

/-! ### The state that `BUILD` answers -/

/-- The state with everything that `BUILD` writes for a variant (R110): the coefficient words `r`, the offset words
`p` and `q` and the mode word each under its gate, and the echo. -/
def State.built (s : State) (v : Variant) (r : Vector Word 6) (p q : Vector Word 3) : State :=
  { s with
    cscCoeff := Vector.ofFn fun k => Reg.ofWrite r[k]
    cscPreoff := if offsetStageRuns v s then Vector.ofFn fun j => Reg.ofWrite p[j] else s.cscPreoff
    cscPostoff := if offsetStageRuns v s then Vector.ofFn fun j => Reg.ofWrite q[j] else s.cscPostoff
    cscMode := if modeStageRuns v s then Reg.ofWrite (modeCode s.modeIn.value) else s.cscMode
    validOut := Reg.ofWrite s.validIn.value }

theorem modeStage_eq :
    modeStage v s = { s with
      cscMode := if modeStageRuns v s then Reg.ofWrite (modeCode s.modeIn.value) else s.cscMode } := by
  unfold modeStage
  split <;> rfl

theorem built_of_offsetStage_idle (ho : offsetStageRuns v s = false) (r : Vector Word 6)
    (p q : Vector Word 3) : s.built v r p q = echoStage (modeStage v (s.setCoeffWords r)) := by
  simp only [State.built, ho, Bool.false_eq_true, if_false, modeStage_eq]
  rfl

theorem built_of_offsetStageRuns (ho : offsetStageRuns v s = true) (r : Vector Word 6)
    (p q : Vector Word 3) :
    s.built v r p q = echoStage (modeStage v ((s.setCoeffWords r).setOffsetWords p q)) := by
  simp only [State.built, ho, if_true, modeStage_eq]
  rfl

/-- `BUILD` for a recognised variant, whole: its answer, and what it takes to answer (R110). Offset words are asked
for under their gate alone. -/
theorem execBuild_built (var : BitVec 2) (hd : s.devid.written = true) (hi : s.validIn.written = true)
    (hc : s.classify s.devid.value = some v) :
    execBuild var s = .next t ↔
      buildInputsWritten v s = true ∧ ∃ r p q, coefficientWords v s = some r ∧
        (offsetStageRuns v s = true →
          offsetWords s.preoffIn = some p ∧ offsetWords s.postoffIn = some q) ∧
        t = s.built v r p q := by
  rw [execBuild_recognised var hd hi hc]
  refine and_congr_right fun _ => ⟨?_, ?_⟩
  · rintro ⟨r, hr, ⟨ho, rfl⟩ | ⟨ho, p, q, hp, hq, rfl⟩⟩
    · exact ⟨r, default, default, hr, by simp [ho], (built_of_offsetStage_idle ho r _ _).symm⟩
    · exact ⟨r, p, q, hr, fun _ => ⟨hp, hq⟩, (built_of_offsetStageRuns ho r p q).symm⟩
  · rintro ⟨r, p, q, hr, hpq, rfl⟩
    refine ⟨r, hr, ?_⟩
    cases ho : offsetStageRuns v s with
    | false => exact .inl ⟨rfl, built_of_offsetStage_idle ho r p q⟩
    | true =>
      obtain ⟨hp, hq⟩ := hpq ho
      exact .inr ⟨rfl, p, q, hp, hq, built_of_offsetStageRuns ho r p q⟩

/-- Settles O49. -/
theorem buildUnrecognisedEchoes : Obligations.BuildUnrecognisedEchoes := fun var _ hd hi hc =>
  (execBuild_next var).mpr ⟨hd, hi, .inl ⟨hc, rfl⟩⟩

/-- Settles O48: a legacy device opens neither gate. -/
theorem buildLegacyWrites : Obligations.BuildLegacyWrites := by
  intro var s x hd hi hc hx
  have hin : buildInputsWritten .legacyFamily s = true :=
    buildInputsWritten_iff.mpr ⟨fun i => (hx i).1, nofun, nofun⟩
  exact (execBuild_built var hd hi hc).mpr
    ⟨hin, _, default, default, coefficientWords_legacy fun i => (hx i).2, nofun, rfl⟩

/-- Settles O47: for a modern device the gates are the two bits. -/
theorem buildModernWrites : Obligations.BuildModernWrites := by
  intro var s v x p q hd hi hc hv hx hpq hmode
  have hm : isModern v = true := (isModern_iff v).mpr hv
  have ho : offsetStageRuns v s = s.validIn.value.getLsbD 1 := offsetStageRuns_modern hm
  have hmo : modeStageRuns v s = s.validIn.value.getLsbD 2 := modeStageRuns_modern hm
  rw [exec_build, execBuild_built var hd hi hc, buildInputsWritten_iff, ho, hmo]
  refine ⟨⟨fun i => (hx i).1, fun h => ⟨fun j => (hpq h j).1.1, fun j => (hpq h j).2.1⟩, hmode⟩, _,
    Vector.ofFn fun j => (enc13 (p j)).setWidth 32, Vector.ofFn fun j => (enc13 (q j)).setWidth 32,
    coefficientWords_modern hm fun i => (hx i).2,
    fun h => ⟨encodeAll_of_values _ fun j => (hpq h j).1.2, encodeAll_of_values _ fun j => (hpq h j).2.2⟩,
    ?_⟩
  simp only [State.built, ho, hmo, Fin.getElem_fin, Vector.getElem_ofFn]
  rfl

/-! ### NaN patterns -/

theorem coefRegs_all_written :
    (coefRegs.all fun r => (s.input r).written) = true ↔ ∀ i : Fin 9, s.coef[i].written = true := by
  simp only [coefRegs, List.all_map, List.all_eq_true, List.mem_finRange, true_imp_iff]
  rfl

theorem offsetInRegs_all_written :
    (offsetInRegs.all fun r => (s.input r).written) = true ↔
      (∀ j : Fin 3, s.preoffIn[j].written = true) ∧ ∀ j : Fin 3, s.postoffIn[j].written = true := by
  simp only [offsetInRegs, List.all_append, Bool.and_eq_true, List.all_map, List.all_eq_true,
    List.mem_finRange, true_imp_iff]
  rfl

/-- Registers read under a gate are asked for where the gate is open. -/
theorem gated_all_iff {α : Type} (gate : Bool) (l : List α) (f : α → Bool) :
    (if gate then l else []).all f = true ↔ (gate = true → l.all f = true) := by
  cases gate <;> simp

/-- The input registers that the table of R119 names are the ones that `BUILD` asks for. -/
theorem inputsWritten_build (var : BitVec 2) (hc : s.classify s.devid.value = some v) :
    inputsWritten (.build var) s = true ↔
      s.devid.written = true ∧ s.validIn.written = true ∧ buildInputsWritten v s = true := by
  simp only [buildInputsWritten_iff, inputsWritten, commandReads, plainReads, floatReads,
    buildUsesMode_of_variant hc, buildFloatReads_of_variant hc, List.all_append, Bool.and_eq_true,
    gated_all_iff, coefRegs_all_written, offsetInRegs_all_written, List.all_cons, List.all_nil,
    and_true]
  exact ⟨fun ⟨⟨⟨hd, hi⟩, hm⟩, hx, ho⟩ => ⟨hd, hi, hx, ho, hm⟩,
    fun ⟨hd, hi, hx, ho, hm⟩ => ⟨⟨⟨hd, hi⟩, hm⟩, hx, ho⟩⟩

/-- With the registers it reads written, the stages decide between completing and being refused (R118). -/
theorem execBuild_of_inputsWritten (var : BitVec 2) (hc : s.classify s.devid.value = some v)
    (hw : inputsWritten (.build var) s = true) :
    ((coefficientStage v s).bind (offsetStage v) = none → execBuild var s = .refused .nanOperand) ∧
      ((coefficientStage v s).bind (offsetStage v) ≠ none → ∃ t, execBuild var s = .next t) := by
  obtain ⟨hd, hi, hin⟩ := (inputsWritten_build var hc).mp hw
  refine ⟨fun hn => ?_, fun hn => ?_⟩
  · have hread : (s.devid.written && s.validIn.written) = true := by rw [hd, hi, Bool.and_self]
    exact (execBuild_refused var).mpr (.inr ⟨hread, v, hc, .inr ⟨hin, hn, rfl⟩⟩)
  · obtain ⟨u, hu⟩ := Option.ne_none_iff_exists'.mp hn
    exact ⟨_, (execBuild_next var).mpr ⟨hd, hi, .inr ⟨v, u, hc, hin, hu, rfl⟩⟩⟩

/-- Settles O50: the stages fail on a NaN pattern that they read, and on nothing else. -/
theorem buildRefusesNan : Obligations.BuildRefusesNan := by
  intro var s v hc hw
  obtain ⟨hrefused, hnext⟩ := execBuild_of_inputsWritten var hc hw
  rw [stages_eq_none] at hrefused
  rw [Ne, stages_eq_none] at hnext
  refine ⟨fun hcoef => hrefused (.inl hcoef),
    fun hv hbit hoff => hrefused (.inr ⟨offsetStageRuns_iff.mpr ⟨hv, hbit⟩, hoff⟩),
    fun hcoef hgate => hnext ?_⟩
  rintro (⟨i, hi⟩ | ⟨ho, -⟩)
  · exact hcoef i hi
  · obtain ⟨hv, hbit⟩ := offsetStageRuns_iff.mp ho
    rcases hgate with hlegacy | hclear
    · exact hv hlegacy
    · rw [hbit] at hclear
      cases hclear

/-! ### The unit operations (R120) -/

/-- Where a group is encoded as a whole, a unit encoder run on one register of it sees the value that the group's
encoder sees. -/
theorem encodeOpf_res_of_encodeAll {α : Type} {m n : Nat} {f : FloatVal → α} {enc : FloatVal → BitVec n}
    {regs : Vector (Reg 32) m} {codes : Vector α m} (hcodes : encodeAll f regs = some codes) {i : Fin m}
    {u : State} (hu : encodeOpf enc { s with opf := regs[i] } = .next u) :
    ∃ x, codes[i] = f x ∧ u.res = Reg.ofWrite ((enc x).setWidth 32) := by
  obtain ⟨-, x, hx, rfl⟩ := (encodeOpf_next enc).mp hu
  have hi := (encodeAll_eq_some f regs codes).mp hcodes i
  rw [hx] at hi
  exact ⟨x, (Option.some.inj hi).symm, rfl⟩

/-- The coefficient words are what a pack makes of the codes of the unit encoder, each moved from `RES` to
`CODE_IN`. -/
theorem packCodeIn_unitCodes {n : Nat} {f : FloatVal → Code16} {enc : FloatVal → BitVec n}
    {layout : Vector Code16 9 → Vector Word 6} {r : Vector Word 6} {u : Fin 9 → State}
    (hr : (encodeAll f s.coef).map layout = some r)
    (hf : ∀ x, ((enc x).setWidth 32).setWidth 16 = f x)
    (hu : ∀ i : Fin 9, encodeOpf enc { s with opf := s.coef[i] } = .next (u i)) :
    ∃ z, packCodeIn layout
        { s with codeIn := Vector.ofFn fun i => Reg.ofWrite ((u i).res.value.setWidth 16) } = .next z ∧
      z.cscCoeff = Vector.ofFn fun k => Reg.ofWrite r[k] := by
  obtain ⟨codes, hcodes, rfl⟩ := Option.map_eq_some_iff.mp hr
  have hres (i : Fin 9) : (u i).res.value.setWidth 16 = codes[i] := by
    obtain ⟨x, hx, hux⟩ := encodeOpf_res_of_encodeAll hcodes (hu i)
    rw [hux, hx, ofWrite_value, hf]
  have hcodeIn : (Vector.ofFn fun i : Fin 9 => (Vector.ofFn fun i => Reg.ofWrite codes[i])[i].value) =
      codes := by
    ext i hi
    simp
  simp only [hres]
  refine ⟨_, packCodeIn_of_written layout fun i => by simp, ?_⟩
  rw [hcodeIn, State.setCoeffWords_cscCoeff]

/-- The offset words are what `ENCO` leaves in `RES`. -/
theorem encodeOpf_res_of_offsetWords {regs : Vector (Reg 32) 3} {p : Vector Word 3}
    (hp : offsetWords regs = some p) {j : Fin 3} {u : State}
    (hu : encodeOpf enc13 { s with opf := regs[j] } = .next u) : Reg.ofWrite p[j] = u.res := by
  obtain ⟨x, hx, hux⟩ := encodeOpf_res_of_encodeAll hp hu
  rw [hux, hx]

/-- Settles O51: the codes of both coefficient encoders pass through the 32 bits of `RES` unchanged. -/
theorem buildEqualsUnitOperations : Obligations.BuildEqualsUnitOperations := by
  intro var s t v u o o' ht hc hu ho
  obtain ⟨hd, hi, -⟩ := (execBuild_next var).mp ht
  obtain ⟨-, r, p, q, hr, hpq, rfl⟩ := (execBuild_built var hd hi hc).mp ht
  have hres {n : Nat} (c : BitVec n) : (c.setWidth 32).setWidth 16 = c.setWidth 16 :=
    BitVec.setWidth_setWidth_of_le c (by norm_num)
  refine ⟨?_, fun hv hbit j => ?_, rfl, rfl, rfl⟩
  · cases v with
    | legacyFamily =>
      obtain ⟨z, hz, hwords⟩ := packCodeIn_unitCodes hr (fun x => hres (enc12 x)) hu
      exact ⟨z, hz, hwords.symm⟩
    | modernFamilyA | modernFamilyB =>
      obtain ⟨z, hz, hwords⟩ :=
        packCodeIn_unitCodes hr (fun x => (hres (enc16 x)).trans (BitVec.setWidth_eq _)) hu
      exact ⟨z, hz, hwords.symm⟩
  · have hruns : offsetStageRuns v s = true := offsetStageRuns_iff.mpr ⟨hv, hbit⟩
    obtain ⟨hp, hq⟩ := hpq hruns
    obtain ⟨hpre, hpost⟩ := ho hv hbit j
    simp only [State.built, hruns, if_true, Fin.getElem_fin, Vector.getElem_ofFn]
    exact ⟨encodeOpf_res_of_offsetWords hp hpre, encodeOpf_res_of_offsetWords hq hpost⟩

end Sys2Proof.Machine
end

section
/-! PROOF. The refusals: in what order a command reports what is wrong with its inputs (R135), and that every
refusal of a step has its cause in the access served (R130, R132). -/

namespace Sys2Proof.Machine

variable {i : Instr} {s : State} {v : Variant} {why : Refusal}

/-! ### What is wrong with the inputs of a command -/

theorem inputsWritten_eq_false :
    inputsWritten i s = false ↔ ∃ r ∈ commandReads i s, (s.input r).written = false := by
  simp [inputsWritten, List.all_eq_false]

/-- An illegal value is a NaN pattern in a float register that the command reads (R31), or the count of `BITREV`
(R63). -/
theorem operandsLegal_eq_false :
    operandsLegal i s = false ↔
      (∃ r ∈ floatReads i s, floatVal (s.input r).value = none) ∨
        ∃ var, i = .bitrev var ∧ 16 < s.opn.value.toNat := by
  unfold operandsLegal
  rw [Bool.and_eq_false_iff]
  refine or_congr (by simp [List.all_eq_false]) ?_
  cases i <;> simp

/-- For an unrecognised device `BUILD` reads `DEVID` and `VALID_IN` alone (R116, R119). -/
theorem inputsWritten_build_unrecognised (var : BitVec 2) (hv : s.variant = none) :
    inputsWritten (.build var) s = (s.devid.written && s.validIn.written) := by
  simp [inputsWritten, commandReads, plainReads, floatReads, buildUsesMode, buildFloatReads, hv, State.input]

theorem operandsLegal_build_unrecognised (var : BitVec 2) (hv : s.variant = none) :
    operandsLegal (.build var) s = true := by
  simp [operandsLegal, floatReads, buildFloatReads, hv]

/-- The stages fail exactly on an illegal value among the float registers that the table of R119 names. -/
theorem operandsLegal_build (var : BitVec 2) (hv : s.variant = some v) :
    operandsLegal (.build var) s = false ↔ (coefficientStage v s).bind (offsetStage v) = none := by
  rw [operandsLegal_eq_false, stages_eq_none, floatReads, buildFloatReads_of_variant hv]
  cases offsetStageRuns v s <;>
    simp [coefRegs, offsetInRegs, State.input, or_and_right, exists_or]

/-! ### The order of the refusals -/

/-- The name under which an illegal value is refused (R132). -/
def illegalValue : Instr → Refusal
  | .bitrev _ => .bitrevCountOutOfContract
  | _ => .nanOperand

/-- The command looks for unwritten inputs first, then for illegal values, and else completes (R135). -/
structure AnswersInOrder (i : Instr) (s : State) : Prop where
  unwritten : inputsWritten i s = false → exec i s = .refused .unwrittenInput
  illegal : inputsWritten i s = true → operandsLegal i s = false → exec i s = .refused (illegalValue i)
  completes : inputsWritten i s = true → operandsLegal i s = true → ∃ t, exec i s = .next t

theorem bitrev_answersInOrder (var : BitVec 2) : AnswersInOrder (.bitrev var) s := by
  have hw : inputsWritten (.bitrev var) s = (s.opv.written && s.opn.written) :=
    congrArg (s.opv.written && ·) (Bool.and_true _)
  have hl : operandsLegal (.bitrev var) s = decide (s.opn.value.toNat ≤ 16) := rfl
  refine ⟨fun h => ?_, fun h hn => ?_, fun h hle => ?_⟩
  · exact (execBitrev_refused var).mpr (.inl ⟨hw ▸ h, rfl⟩)
  · rw [hl, decide_eq_false_iff_not, Nat.not_le] at hn
    exact (execBitrev_refused var).mpr (.inr ⟨hw ▸ h, hn, rfl⟩)
  · rw [hl, decide_eq_true_iff] at hle
    obtain ⟨hv, hn⟩ := Bool.and_eq_true_iff.mp (hw ▸ h)
    exact ⟨_, (execBitrev_next var).mpr ⟨hv, hn, hle, rfl⟩⟩

/-- A unit encoder, run by a command that reads `OPF`. -/
theorem encodeOpf_answersInOrder {n : Nat} (enc : FloatVal → BitVec n) (hplain : plainReads i s = [])
    (hfloat : floatReads i s = [.opf]) (hillegal : illegalValue i = .nanOperand)
    (hbitrev : ∀ var, i ≠ .bitrev var) (hexec : exec i s = encodeOpf enc s) : AnswersInOrder i s := by
  have hw : inputsWritten i s = s.opf.written := by
    simp [inputsWritten, commandReads, hplain, hfloat, State.input]
  have hl : operandsLegal i s = false ↔ floatVal s.opf.value = none := by
    simp [operandsLegal_eq_false, hfloat, hbitrev, State.input]
  refine ⟨fun h => ?_, fun h hn => ?_, fun h hx => ?_⟩
  · rw [hexec]
    exact (encodeOpf_refused enc).mpr (.inl ⟨hw ▸ h, rfl⟩)
  · rw [hexec, hillegal]
    exact (encodeOpf_refused enc).mpr (.inr ⟨hw ▸ h, hl.mp hn, rfl⟩)
  · have hvalue : floatVal s.opf.value ≠ none := fun hn => Bool.false_ne_true ((hl.mpr hn).symm.trans hx)
    obtain ⟨x, hx⟩ := Option.ne_none_iff_exists'.mp hvalue
    exact ⟨_, hexec.trans ((encodeOpf_next enc).mpr ⟨hw ▸ h, x, hx, rfl⟩)⟩

/-- A layout, run by a command that reads the codes: any code is legal. -/
theorem packCodeIn_answersInOrder (layout : Vector Code16 9 → Vector Word 6)
    (hreads : commandReads i s = codeInRegs) (hlegal : operandsLegal i s = true)
    (hexec : exec i s = packCodeIn layout s) : AnswersInOrder i s := by
  have hw : inputsWritten i s = allWritten s.codeIn := by
    rw [Bool.eq_iff_iff, allWritten_iff]
    simp [inputsWritten, hreads, codeInRegs, State.input]
  refine ⟨fun h => ?_, fun _ hn => ?_, fun h _ => ?_⟩
  · exact hexec.trans ((packCodeIn_refused layout).mpr ⟨hw ▸ h, rfl⟩)
  · exact absurd (hn.symm.trans hlegal) Bool.false_ne_true
  · exact ⟨_, hexec.trans ((packCodeIn_next layout).mpr ⟨hw ▸ h, rfl⟩)⟩

theorem build_answersInOrder_unrecognised (var : BitVec 2) (hv : s.variant = none) :
    AnswersInOrder (.build var) s := by
  have hw := inputsWritten_build_unrecognised var hv
  refine ⟨fun h => ?_, fun _ hn => ?_, fun h _ => ?_⟩
  · exact (execBuild_refused var).mpr (.inl ⟨hw ▸ h, rfl⟩)
  · exact absurd (hn.symm.trans (operandsLegal_build_unrecognised var hv)) Bool.false_ne_true
  · obtain ⟨hd, hi⟩ := Bool.and_eq_true_iff.mp (hw ▸ h)
    exact ⟨_, (execBuild_next var).mpr ⟨hd, hi, .inl ⟨hv, rfl⟩⟩⟩

theorem build_answersInOrder_recognised (var : BitVec 2) (hv : s.variant = some v) :
    AnswersInOrder (.build var) s := by
  refine ⟨fun h => (execBuild_refused var).mpr ?_, fun h hn => ?_, fun h hl => ?_⟩
  · cases hread : s.devid.written && s.validIn.written with
    | false => exact .inl ⟨rfl, rfl⟩
    | true =>
      obtain ⟨hd, hi⟩ := Bool.and_eq_true_iff.mp hread
      have hin : buildInputsWritten v s = false := Bool.eq_false_iff.mpr fun hb =>
        Bool.false_ne_true (h.symm.trans ((inputsWritten_build var hv).mpr ⟨hd, hi, hb⟩))
      exact .inr ⟨rfl, v, hv, .inl ⟨hin, rfl⟩⟩
  · obtain ⟨hrefused, -⟩ := execBuild_of_inputsWritten var hv h
    exact hrefused ((operandsLegal_build var hv).mp hn)
  · obtain ⟨-, hnext⟩ := execBuild_of_inputsWritten var hv h
    refine hnext fun hn => ?_
    exact Bool.false_ne_true (((operandsLegal_build var hv).mpr hn).symm.trans hl)

/-- Every command that is not reserved keeps to the order of R135. -/
theorem answersInOrder (s : State) (hi : i.wellFormed = true) : AnswersInOrder i s := by
  cases i with
  | bitrev var => exact bitrev_answersInOrder var
  | enccL => exact encodeOpf_answersInOrder enc12 rfl rfl rfl nofun rfl
  | enccM fam => exact encodeOpf_answersInOrder enc16 rfl rfl rfl nofun rfl
  | enco var => exact encodeOpf_answersInOrder enc13 rfl rfl rfl nofun rfl
  | packL => exact packCodeIn_answersInOrder packL (List.append_nil _) rfl rfl
  | packM fam => exact packCodeIn_answersInOrder packM (List.append_nil _) rfl rfl
  | build var =>
    cases hv : s.variant with
    | none => exact build_answersInOrder_unrecognised var hv
    | some v => exact build_answersInOrder_recognised var hv
  | reservedEncc0 | reservedPack0 | reservedOp5 | reservedOp67 => cases hi

/-- Settles O22. -/
theorem refusalsInOrder : Obligations.RefusalsInOrder := by
  intro i s hi
  obtain ⟨hunwritten, hillegal, -⟩ := answersInOrder s hi
  exact ⟨hunwritten, hillegal⟩

/-! ### The causes -/

/-- Why a command is refused (R132). -/
inductive CommandCause (i : Instr) (s : State) : Refusal → Prop
  | reserved (h : i.wellFormed = false) : CommandCause i s .reservedCommand
  | count (var : BitVec 2) (hi : i = .bitrev var) (h : 16 < s.opn.value.toNat) :
      CommandCause i s .bitrevCountOutOfContract
  | nan (r : InReg) (hr : r ∈ floatReads i s) (h : floatVal (s.input r).value = none) :
      CommandCause i s .nanOperand
  | unwritten (r : InReg) (hr : r ∈ commandReads i s) (h : (s.input r).written = false) :
      CommandCause i s .unwrittenInput

/-- Why the port refuses an access that runs no command (R32, R44, log 6). -/
inductive PortCause : HostEvent → Refusal → Prop
  | output (r : OutReg) (x : Nat) : PortCause (.write (RegName.out r).number x) .hostWriteToOutput
  | unusedWrite (n x : Nat) (h : n = 0x1F ∨ 0x2F ≤ n) : PortCause (.write n x) .unusedRegister
  | unusedRead (n : Nat) (h : n = 0x1F ∨ 0x2F ≤ n) : PortCause (.read n) .unusedRegister
  | wideInput (r : InReg) (x : Nat) (h : 2 ^ r.width ≤ x) :
      PortCause (.write (RegName.inp r).number x) .writeWiderThanRegister
  | wideCommand (x : Nat) (h : 2 ^ 5 ≤ x) : PortCause (.write 0x1E x) .writeWiderThanRegister

/-- An illegal value is the cause that its refusal names. -/
theorem commandCause_of_illegal (h : operandsLegal i s = false) : CommandCause i s (illegalValue i) := by
  rcases operandsLegal_eq_false.mp h with ⟨r, hr, hnan⟩ | ⟨var, rfl, hcount⟩
  · cases i with
    | bitrev var => cases hr
    | _ => exact .nan r hr hnan
  · exact .count var rfl hcount

/-- A command completes, or is refused with its cause. -/
theorem exec_next_or_refused (i : Instr) (s : State) :
    (∃ t, exec i s = .next t) ∨ ∃ why, exec i s = .refused why ∧ CommandCause i s why := by
  cases hi : i.wellFormed with
  | false => exact .inr ⟨_, exec_of_reserved hi, .reserved hi⟩
  | true =>
    have horder := answersInOrder s hi
    cases hw : inputsWritten i s with
    | false =>
      obtain ⟨r, hr, h⟩ := inputsWritten_eq_false.mp hw
      exact .inr ⟨_, horder.unwritten hw, .unwritten r hr h⟩
    | true =>
      cases hl : operandsLegal i s with
      | false => exact .inr ⟨_, horder.illegal hw hl, commandCause_of_illegal hl⟩
      | true => exact .inl (horder.completes hw hl)

/-- No command reads `CMD` or the accesses still to serve. -/
theorem CommandCause.of_latchCommand {w : CommandWord} {rest : List HostEvent}
    (h : CommandCause i ((s.withPending rest).latchCommand w) why) : CommandCause i s why := by
  have hin (r : InReg) : ((s.withPending rest).latchCommand w).input r = s.input r := by cases r <;> rfl
  cases h with
  | reserved h => exact .reserved h
  | count var hi h => exact .count var hi h
  | nan r hr h => exact .nan r hr (hin r ▸ h)
  | unwritten r hr h => exact .unwritten r hr (hin r ▸ h)

/-- An access writes a command word to `CMD`, is refused by the port with its cause, or is served. -/
theorem request_cases (e : HostEvent) :
    (∃ w : CommandWord, e = .write 0x1E w.toNat) ∨
      (∃ why, request e = .refuse why ∧ PortCause e why) ∨ ∀ s, ∃ t, serve (request e) s = .next t := by
  cases e with
  | reset => exact .inr (.inr fun _ => ⟨_, rfl⟩)
  | read n =>
    cases hn : RegName.ofNumber n with
    | none =>
      have hunused := ofNumber_eq_none_iff.mp hn
      exact .inr (.inl ⟨_, request_read_unused hunused, .unusedRead n hunused⟩)
    | some r =>
      obtain rfl := ofNumber_eq_some_iff.mp hn
      exact .inr (.inr fun _ => ⟨_, by rw [request_read, serve]⟩)
  | write n x =>
    cases hn : RegName.ofNumber n with
    | none =>
      have hunused := ofNumber_eq_none_iff.mp hn
      exact .inr (.inl ⟨_, request_write_unused hunused x, .unusedWrite n x hunused⟩)
    | some r =>
      obtain rfl := ofNumber_eq_some_iff.mp hn
      cases r with
      | out r => exact .inr (.inl ⟨_, request_write_output r x, .output r x⟩)
      | inp r =>
        rcases Nat.lt_or_ge x (2 ^ r.width) with hx | hx
        · exact .inr (.inr fun _ => ⟨_, by rw [request_write_fitting hx, serve]⟩)
        · exact .inr (.inl ⟨_, request_write_wide hx, .wideInput r x hx⟩)
      | cmd =>
        rcases Nat.lt_or_ge x (2 ^ 5) with hx | hx
        · exact .inl ⟨BitVec.ofNat 5 x, by rw [BitVec.toNat_ofNat, Nat.mod_eq_of_lt hx]; rfl⟩
        · exact .inr (.inl ⟨_, request_write_cmd_wide hx, .wideCommand x hx⟩)

/-- A step answers a state, or is refused for a cause in the command or in the access that it serves. -/
theorem step_next_or_refused (s : State) :
    (∃ t, step s = .next t) ∨ ∃ e rest why, s.pending = e :: rest ∧ step s = .refused why ∧
      (PortCause e why ∨ ∃ w : CommandWord, e = .write 0x1E w.toNat ∧ CommandCause (decode w) s why) := by
  cases hp : s.pending with
  | nil => exact .inl ⟨s, step_of_idle hp⟩
  | cons e rest =>
    rcases request_cases e with ⟨w, rfl⟩ | ⟨why, hq, hcause⟩ | hserved
    · rw [step_of_command hp]
      refine (exec_next_or_refused (decode w) _).imp_right fun ⟨why, hx, hcause⟩ => ?_
      exact ⟨_, rest, why, rfl, hx, .inr ⟨w, rfl, hcause.of_latchCommand⟩⟩
    · exact .inr ⟨e, rest, why, rfl, step_of_refused hp hq, .inl hcause⟩
    · rw [step_of_pending hp]
      exact .inl (hserved _)

/-- Settles O17: each cause of the port or of the command is one of those listed. -/
theorem stepRefusalsHaveCause : Obligations.StepRefusalsHaveCause := by
  intro s
  refine (step_next_or_refused s).imp_right fun ⟨e, rest, why, hp, hstep, hcause⟩ => ?_
  refine ⟨e, rest, why, hp, hstep, ?_⟩
  rcases hcause with hport | ⟨w, rfl, hcommand⟩
  · refine .inr (.inr (.inr (.inr ?_)))
    cases hport with
    | output r x => exact .inl ⟨rfl, r, x, rfl⟩
    | unusedWrite n x h => exact .inr (.inl ⟨rfl, n, h, .inr ⟨x, rfl⟩⟩)
    | unusedRead n h => exact .inr (.inl ⟨rfl, n, h, .inl rfl⟩)
    | wideInput r x h => exact .inr (.inr ⟨rfl, .inl ⟨r, x, rfl, h⟩⟩)
    | wideCommand x h => exact .inr (.inr ⟨rfl, .inr ⟨x, rfl, h⟩⟩)
  · cases hcommand with
    | reserved h => exact .inl ⟨rfl, w, rfl, reserved_of_decode w h⟩
    | count var hi h => exact .inr (.inl ⟨rfl, w, var, rfl, hi, h⟩)
    | nan r hr h => exact .inr (.inr (.inl ⟨rfl, w, r, rfl, hr, h⟩))
    | unwritten r hr h => exact .inr (.inr (.inr (.inl ⟨rfl, w, r, rfl, hr, h⟩)))

end Sys2Proof.Machine
end

section
/-! PROOF. What the host owes the block before a command (R151): a command runs exactly when it is ready, and
`withFetchWord` places a command so that the next step runs it (log 5). -/

namespace Sys2Proof.Machine

variable {i : Instr} {s : State}

/-! ### When a command completes -/

theorem ready_iff :
    ready i s = true ↔ i.wellFormed = true ∧ inputsWritten i s = true ∧ operandsLegal i s = true := by
  rw [ready, Bool.and_eq_true, Bool.and_eq_true, and_assoc]

theorem exec_of_ready (h : ready i s = true) : ∃ t, exec i s = .next t := by
  obtain ⟨hi, hw, hl⟩ := ready_iff.mp h
  exact (answersInOrder s hi).completes hw hl

/-- The first of the three conditions that fails names the refusal (R135). -/
theorem exec_of_not_ready (h : ready i s = false) : ∃ why, exec i s = .refused why := by
  cases hi : i.wellFormed with
  | false => exact ⟨_, exec_of_reserved hi⟩
  | true =>
    have horder := answersInOrder s hi
    cases hw : inputsWritten i s with
    | false => exact ⟨_, horder.unwritten hw⟩
    | true =>
      cases hl : operandsLegal i s with
      | false => exact ⟨_, horder.illegal hw hl⟩
      | true => exact absurd (h.symm.trans (ready_iff.mpr ⟨hi, hw, hl⟩)) Bool.false_ne_true

/-- Settles O21: a command that is not ready is refused, so it answers no state. -/
theorem commandCompletesIffReady : Obligations.CommandCompletesIffReady := by
  refine fun i s => ⟨exec_of_ready, fun ⟨t, ht⟩ => ?_⟩
  cases hr : ready i s with
  | true => rfl
  | false =>
    obtain ⟨why, hwhy⟩ := exec_of_not_ready hr
    cases ht.symm.trans hwhy

/-! ### Placing a command -/

/-- A command word has 5 bits, so the host's byte keeps all of it. -/
theorem commandWord_mod_byte (w : CommandWord) : w.toNat % 2 ^ 8 = w.toNat :=
  Nat.mod_eq_of_lt (w.isLt.trans (by decide))

theorem decodeTableWord_byte (w : CommandWord) : decodeTableWord 8 w.toNat = some (decode w) := by
  rw [decodeTableWord, commandWord_mod_byte, decodeValue, if_pos w.isLt, BitVec.ofNat_toNat,
    BitVec.setWidth_eq]

theorem State.withFetchWord_pending (s : State) (w : CommandWord) :
    (s.withFetchWord 8 w.toNat).pending = .write 0x1E w.toNat :: s.pending := by
  rw [State.withFetchWord, commandWord_mod_byte]
  rfl

/-- Serving the command write takes off the access that was placed, and leaves the word in `CMD`. -/
theorem step_withFetchWord (s : State) (w : CommandWord) :
    step (s.withFetchWord 8 w.toNat) = exec (decode w) { s.withInputsWritten with cmd := Reg.ofWrite w } :=
  step_of_command (s.withFetchWord_pending w)

/-- Settles O4. -/
theorem placedCommandRuns : Obligations.PlacedCommandRuns := by
  refine fun s i => ⟨?_, ?_, fun r => ?_⟩
  · rw [step_withFetchWord, decode_encode]
  · rw [decodeTableWord_byte, decode_encode]
  · rw [State.withInputsWritten_input]

end Sys2Proof.Machine
end
